-- ==== Sys2Proof/Word.lean ====
section
/-! DEFINITION. The words of the block: the fixed field widths of spec/00_scope.md rule R8. -/

namespace Sys2Proof

/-- The phase state, "integer in `[0,8)`" (R8, R18); also the I/Q table index. -/
abbrev Phase := BitVec 3

/-- A stored phase delta: a 3-bit two's complement code (R8, R36). -/
abbrev DeltaCode := BitVec 3

/-- A dibit `{b0, b1}`: bit 1 is the first bit of the pair in stream order (R8, R54). -/
abbrev Dibit := BitVec 2

/-- An I or Q component: one IEEE 754 binary64 pattern, carried whole (R8, R59). -/
abbrev Binary64 := BitVec 64

end Sys2Proof
end

