-- ==== Sys2Proof/Config.lean ====
section
/-! DEFINITION. What a build of the block fixes: the two parameters `LEN_W` and `IQ_TABLE` of
spec/00_scope.md rules R6 and R7. Their default values are in Sys2Proof/Machine/Tables.lean. -/

namespace Sys2Proof

/-- One entry of `IQROM`: the pair (I, Q) of binary64 patterns (R34, R39). -/
structure IqPoint where
  /-- In-phase component, the real part. -/
  i : Binary64
  /-- Quadrature component, the imaginary part. -/
  q : Binary64
  deriving DecidableEq, Repr

/-- The contents of `IQROM`: 8 entries, indexed by the phase (R34). -/
abbrev IqTable := Vector IqPoint 8

/-- The parameters of a build (R6, R7). They are configuration, not registers (R15): the machine's
state carries them so that one step function serves every build, and no operation writes them. -/
structure Config where
  /-- `LEN_W`, the width in bits of the field `cmd_len` (R6). -/
  lenW : Nat
  /-- `IQ_TABLE`, the contents of `IQROM` (R7). -/
  iqTable : IqTable
  deriving DecidableEq, Repr

end Sys2Proof
end

