-- ==== Sys2Proof/Machine/Tables.lean ====
section
/-! DEFINITION. The block's two read-only tables and the default configuration
(spec/20_memory.md rules R34 to R45; spec/00_scope.md rules R6 and R7). Reads are total: "every
address holds a defined entry" (R45), and the tables cannot be written (R35). -/

namespace Sys2Proof.Machine

/-- Contents of `DeltaROM`: the 3-bit two's complement codes of R36. -/
def deltaRom (a : Dibit) : DeltaCode :=
  match a.toNat with
  | 0 => 0b001#3
  | 1 => 0b011#3
  | 2 => 0b111#3
  | _ => 0b101#3

/-- `MemRead(IQROM, a)`: one whole 128-bit entry (R41, R42). -/
def iqRead (t : IqTable) (a : Phase) : IqPoint := t.get a.toFin

/-- `+1.0` (R39). -/
def b64One : Binary64 := 0x3FF0000000000000#64
/-- `+0.0` (R39). -/
def b64Zero : Binary64 := 0x0000000000000000#64
/-- `−1.0` (R39). -/
def b64NegOne : Binary64 := 0xBFF0000000000000#64
/-- `r`, the binary64 value nearest to √2/2 (R39). -/
def b64R : Binary64 := 0x3FE6A09E667F3BCD#64
/-- `−r` (R39). -/
def b64NegR : Binary64 := 0xBFE6A09E667F3BCD#64

/-- The default table `IQ_CANON` of R39, entry `k` at angle `kπ/4`. -/
def iqCanon : IqTable :=
  #v[⟨b64One, b64Zero⟩, ⟨b64R, b64R⟩, ⟨b64Zero, b64One⟩, ⟨b64NegR, b64R⟩,
     ⟨b64NegOne, b64Zero⟩, ⟨b64NegR, b64NegR⟩, ⟨b64Zero, b64NegOne⟩, ⟨b64R, b64NegR⟩]

/-- The default configuration: `LEN_W = 16` (R6) and `IQ_TABLE = IQ_CANON` (R7). -/
def standardConfig : Config := { lenW := 16, iqTable := iqCanon }

/-! The binary64 layout (R59) and the admissible tables (R40), in exact integer arithmetic. A finite
binary64 value is an integer multiple of `2^-1074`; `b64Scaled` is that integer. -/

/-- Sign bit, bit 63 (R59). -/
def b64Sign (v : Binary64) : Bool := v.getLsbD 63
/-- Biased exponent, bits 62:52 (R59). -/
def b64Exponent (v : Binary64) : Nat := (v.extractLsb' 52 11).toNat
/-- Fraction, bits 51:0 (R59). -/
def b64Fraction (v : Binary64) : Nat := (v.extractLsb' 0 52).toNat

/-- A binary64 pattern is finite when its exponent field is not all ones (IEEE 754, the layout R59 names). -/
def b64Finite (v : Binary64) : Bool := decide (b64Exponent v ≠ 2047)

/-- The magnitude of a finite pattern, times `2^1074`: subnormal when the exponent field is 0, with
the leading one otherwise. -/
def b64ScaledMagnitude (v : Binary64) : Nat :=
  if b64Exponent v = 0 then b64Fraction v
  else (2 ^ 52 + b64Fraction v) * 2 ^ (b64Exponent v - 1)

/-- The value of a finite pattern, times `2^1074`. -/
def b64Scaled (v : Binary64) : Int :=
  if b64Sign v then -(b64ScaledMagnitude v : Int) else (b64ScaledMagnitude v : Int)

/-- `1.0`, times `2^1074`. -/
def scaledOne : Int := 2 ^ 1074

/-- The exact values `cos(kπ/4)` and `sin(kπ/4)` take. -/
inductive ExactComponent where
  | zero | one | negOne | halfRoot | negHalfRoot
  deriving DecidableEq, Repr

/-- `cos(kπ/4)` for `k = 0..7` (R39, column "I (exact)"). -/
def exactCos (k : Phase) : ExactComponent :=
  match k.toNat with
  | 0 => .one
  | 1 => .halfRoot
  | 2 => .zero
  | 3 => .negHalfRoot
  | 4 => .negOne
  | 5 => .negHalfRoot
  | 6 => .zero
  | _ => .halfRoot

/-- `sin(kπ/4)` for `k = 0..7` (R39, column "Q (exact)"). -/
def exactSin (k : Phase) : ExactComponent :=
  match k.toNat with
  | 0 => .zero
  | 1 => .halfRoot
  | 2 => .one
  | 3 => .halfRoot
  | 4 => .zero
  | 5 => .negHalfRoot
  | 6 => .negOne
  | _ => .negHalfRoot

/-- `|x - c| <= 1e-6` for an integer multiple `c` of one: both sides times `10^6 * 2^1074`. -/
def nearInteger (x c : Int) : Bool :=
  decide (((x - c * scaledOne) * 10 ^ 6).natAbs ≤ scaledOne.natAbs)

/-- `|x - √2/2| <= 1e-6`, by comparing squares: with `a = x - 1e-6` and `b = x + 1e-6`, it says
`a <= √2/2` (that is `a <= 0` or `2a² <= 1`) and `√2/2 <= b` (that is `0 <= b` and `1 <= 2b²`). -/
def nearHalfRoot (x : Int) : Bool :=
  let a := x * 10 ^ 6 - scaledOne
  let b := x * 10 ^ 6 + scaledOne
  let u := 10 ^ 6 * scaledOne
  (decide (a ≤ 0) || decide (2 * (a * a) ≤ u * u)) && (decide (0 ≤ b) && decide (u * u ≤ 2 * (b * b)))

/-- A component is a finite binary64 value within `1e-6` of the exact one (R40 b). -/
def nearExact (e : ExactComponent) (v : Binary64) : Bool :=
  b64Finite v &&
    match e with
    | .zero => nearInteger (b64Scaled v) 0
    | .one => nearInteger (b64Scaled v) 1
    | .negOne => nearInteger (b64Scaled v) (-1)
    | .halfRoot => nearHalfRoot (b64Scaled v)
    | .negHalfRoot => nearHalfRoot (-(b64Scaled v))

/-- `| sqrt(I² + Q²) − 1 | <= 1e-6` (R40 c), by comparing squares: `(1 - 1e-6)² <= I² + Q² <= (1 + 1e-6)²`. -/
def unitMagnitude (z : IqPoint) : Bool :=
  let n := (b64Scaled z.i * b64Scaled z.i + b64Scaled z.q * b64Scaled z.q) * 10 ^ 12
  decide ((10 ^ 6 - 1) * (10 ^ 6 - 1) * (scaledOne * scaledOne) ≤ n) &&
    decide (n ≤ (10 ^ 6 + 1) * (10 ^ 6 + 1) * (scaledOne * scaledOne))

/-- Entry `k` of an admissible table (R40 b, c). -/
def admissibleEntry (t : IqTable) (k : Phase) : Bool :=
  nearExact (exactCos k) (iqRead t k).i && nearExact (exactSin k) (iqRead t k).q &&
    unitMagnitude (iqRead t k)

/-- The admissible values of `IQ_TABLE` (R40): entry 0 exact, and every entry near its point. -/
def admissibleTable (t : IqTable) : Bool :=
  decide (iqRead t 0 = ⟨b64One, b64Zero⟩) &&
    [0, 1, 2, 3, 4, 5, 6, 7].all (admissibleEntry t)

/-- A legal build: `LEN_W >= 2` (R6) and an admissible `IQ_TABLE` (R7, R40). -/
def legalConfig (c : Config) : Bool := decide (2 ≤ c.lenW) && admissibleTable c.iqTable

end Sys2Proof.Machine
end

