-- ==== Sys2Proof/Syntax.lean ====
section
/-! DEFINITION. The operations of the block: one constructor per row of spec/opcode_table.json
(spec/30_encoding.md rule R66), and the input channels their words arrive on (R56, R63). -/

namespace Sys2Proof

/-- The eight operations of R66. "What plays the role of an instruction is one transfer on an input
channel: a command word on `cmd`, a dibit word on `din`, or a strobe on a control input." -/
inductive Instr where
  /-- `START`: a `CMD` word with `P = 0`; `n` is its field `N`, the number of dibits (R52, R68). -/
  | start (n : Nat)
  /-- `START_ODD`: a `CMD` word with `P = 1`; `n` is its field `N`, which the block ignores (R52, R69). -/
  | startOdd (n : Nat)
  /-- `DIB00`: dibit 0, phase delta +1 (R73). -/
  | dib00
  /-- `DIB01`: dibit 1, phase delta +3 (R74). -/
  | dib01
  /-- `DIB10`: dibit 2, phase delta −1 (R75). -/
  | dib10
  /-- `DIB11`: dibit 3, phase delta −3 (R76). -/
  | dib11
  /-- `ERRCLR`: the strobe `err_clr = 1` (R84). -/
  | errclr
  /-- `RESET`: the strobe `rst = 1` (R102). -/
  | reset
  deriving DecidableEq, Repr

/-- Where an input word arrives. "The channel a word arrives on tells its format" (R63). -/
inductive Channel where
  /-- Channel `cmd`, format `CMD` (R52). -/
  | cmd
  /-- Channel `din`, format `DAT` (R54). -/
  | din
  /-- Control input `err_clr`, format `CTL` (R56). -/
  | errClr
  /-- Control input `rst`, format `CTL` (R56). -/
  | rst
  deriving DecidableEq, Repr

end Sys2Proof
end

