-- ==== Sys2Proof/WellFormed.lean ====
section
/-! DEFINITION. When a configuration and an instruction are well formed. -/

namespace Sys2Proof

/-- The constraint on `LEN_W`: `LEN_W >= 2` (spec/00_scope.md rule R6). -/
def Config.lenOk (c : Config) : Bool := decide (2 ≤ c.lenW)

/-- An instruction is well formed in a build when its field fits the build's word: `N` of a `CMD`
word has `LEN_W - 1` bits (spec/30_encoding.md rules R52, R60). The other rows have no field. -/
def Instr.wf (c : Config) : Instr → Bool
  | .start n => decide (n < 2 ^ (c.lenW - 1))
  | .startOdd n => decide (n < 2 ^ (c.lenW - 1))
  | .dib00 => true
  | .dib01 => true
  | .dib10 => true
  | .dib11 => true
  | .errclr => true
  | .reset => true

end Sys2Proof
end

