-- ==== Sys2Proof/Decode.lean ====
section
/-! DEFINITION. Decoding and encoding of the input words (spec/30_encoding.md rules R51 to R66).
A word is the natural number its channel's wires carry; the channel tells the format (R63). -/

namespace Sys2Proof

/-- Why a number is no word of a channel. Every value the wires can carry decodes or, for a control
input, is the inactive level 0 (R56, R61). -/
inductive DecodeError where
  /-- The number has a one above the channel's width, so it spells no transfer (R64). -/
  | wordTooWide (ch : Channel)
  /-- "A value 0 on either does nothing" (R56): no operation is selected. -/
  | controlInactive (ch : Channel)
  deriving DecidableEq, Repr

/-- The width in bits of a channel's word (R57). -/
def channelWidth (c : Config) : Channel → Nat
  | .cmd => c.lenW
  | .din => 2
  | .errClr => 1
  | .rst => 1

/-- Field `N` of a `CMD` word, `cmd_len[LEN_W-1:1]` (R52). -/
def cmdFieldN (c : Config) (w : Nat) : Nat := (w / 2) % 2 ^ (c.lenW - 1)

/-- Field `P` of a `CMD` word, `cmd_len[0]`: true for an odd length (R52). -/
def cmdFieldP (w : Nat) : Bool := decide (w % 2 = 1)

/-- Decoding of `CMD`: `P` alone selects the operation (R53). -/
def decodeCmd (c : Config) (w : Nat) : Except DecodeError Instr :=
  if w < 2 ^ c.lenW then
    if cmdFieldP w then .ok (.startOdd (cmdFieldN c w)) else .ok (.start (cmdFieldN c w))
  else .error (.wordTooWide .cmd)

/-- Decoding of `DAT` (R55). -/
def decodeDat (w : Nat) : Except DecodeError Instr :=
  match w with
  | 0 => .ok .dib00
  | 1 => .ok .dib01
  | 2 => .ok .dib10
  | 3 => .ok .dib11
  | _ => .error (.wordTooWide .din)

/-- Decoding of `CTL`: the input at 1 selects its operation (R56). -/
def decodeCtl (ch : Channel) (i : Instr) (w : Nat) : Except DecodeError Instr :=
  match w with
  | 0 => .error (.controlInactive ch)
  | 1 => .ok i
  | _ => .error (.wordTooWide ch)

/-- Decoding of a word by the channel it arrives on (R63, R66). -/
def decode (c : Config) (ch : Channel) (w : Nat) : Except DecodeError Instr :=
  match ch with
  | .cmd => decodeCmd c w
  | .din => decodeDat w
  | .errClr => decodeCtl .errClr .errclr w
  | .rst => decodeCtl .rst .reset w

/-- The channel an operation is sent on (R66, column "format"). -/
def Instr.channel : Instr → Channel
  | .start _ => .cmd
  | .startOdd _ => .cmd
  | .dib00 => .din
  | .dib01 => .din
  | .dib10 => .din
  | .dib11 => .din
  | .errclr => .errClr
  | .reset => .rst

/-- The word of an operation on its channel (R66, column "pattern"). -/
def encode : Instr → Nat
  | .start n => 2 * n
  | .startOdd n => 2 * n + 1
  | .dib00 => 0b00
  | .dib01 => 0b01
  | .dib10 => 0b10
  | .dib11 => 0b11
  | .errclr => 1
  | .reset => 1

/-- The channel the host's bare table word is read on, from its length alone: 16 bits is a `CMD` word of
the default `LEN_W = 16`; a whole byte (or 2 bits) is a `DAT` word; one bit is `err_clr`. DESIGN CHOICE
(notes/assumptions/9.md): the rows `DIB01`, `ERRCLR` and `RESET` have the same number 1, and only the
channel tells them apart (R63), which a bare number does not carry. -/
def tableWordChannel (nbits : Nat) : Option Channel :=
  match nbits with
  | 16 => some .cmd
  | 8 => some .din
  | 2 => some .din
  | 1 => some .errClr
  | _ => none

/-- The instruction the decoder reads from a word of spec/opcode_table.json, under the default configuration. -/
def decodeTableWord (nbits w : Nat) : Option Instr :=
  match tableWordChannel nbits with
  | some ch =>
    match decode Machine.standardConfig ch w with
    | .ok i => some i
    | .error _ => none
  | none => none

end Sys2Proof
end

