-- ==== Sys2Proof/Machine/Regs.lean ====
section
/-! DEFINITION. The block's nine registers (spec/10_state.md rule R15), its ports (spec/30_encoding.md
rule R57), and what one edge shows (spec/42_output_status.md rule R88, `emit`). -/

namespace Sys2Proof.Machine

/-- The symbol sequencer's two states, register `ST` (R16). -/
inductive SeqState where
  /-- `IDLE` (0): no frame is open. -/
  | idle
  /-- `RUN` (1): a frame is open with dibits still due. -/
  | run
  deriving DecidableEq, Repr

/-- The nine registers of R15: "The block's state is exactly the following nine registers." -/
structure Regs where
  /-- `ST`, 1 bit: the sequencer state (R16). -/
  st : SeqState
  /-- `PHASE`, 3 bits: the phase accumulator (R18). -/
  phase : Phase
  /-- `REM`, `LEN_W - 1` bits, unsigned: dibits still to be accepted in the frame (R19). -/
  rem : Nat
  /-- `OV`, 1 bit: the holding register holds a symbol not yet transferred (R20). -/
  ov : Bool
  /-- `OPH`, 3 bits: phase index of the held symbol (R20). -/
  oph : Phase
  /-- `OREF`, 1 bit: the held symbol is its frame's reference symbol (R20). -/
  oref : Bool
  /-- `OLAST`, 1 bit: the held symbol is the last of its frame (R20). -/
  olast : Bool
  /-- `ERRS`, 1 bit: the sticky InvalidInputLength flag (R21). -/
  errs : Bool
  /-- `ERRP`, 1 bit: the one-edge InvalidInputLength event flag (R22). -/
  errp : Bool
  deriving DecidableEq, Repr

/-- The reset values of R32: every register 0. -/
def resetValues : Regs :=
  { st := .idle, phase := 0, rem := 0, ov := false, oph := 0, oref := false, olast := false,
    errs := false, errp := false }

/-- The input ports of R57 (all but `clk`) in one cycle. -/
structure Ports where
  /-- `rst`, synchronous reset. -/
  rst : Bool
  /-- `cmd_valid`, a command is offered. -/
  cmdValid : Bool
  /-- `cmd_len`, the frame's bit count `L`, an unsigned integer of `LEN_W` bits. -/
  cmdLen : Nat
  /-- `din_valid`, a dibit is offered. -/
  dinValid : Bool
  /-- `din_dibit`, `{b0, b1}`. -/
  dinDibit : Dibit
  /-- `dout_ready`, downstream accepts a symbol. -/
  doutReady : Bool
  /-- `err_clr`, clear the sticky error flag. -/
  errClr : Bool
  deriving DecidableEq, Repr

/-- The payload of one symbol transfer, format `OUT` (R58). -/
structure OutSymbol where
  /-- `dout_phase`. -/
  phase : Phase
  /-- `dout_i`. -/
  i : Binary64
  /-- `dout_q`. -/
  q : Binary64
  /-- `dout_ref`. -/
  ref : Bool
  /-- `dout_last`. -/
  last : Bool
  deriving DecidableEq, Repr

/-- The observation of one edge: the transfers on the three channels and their payloads (R88, `emit`). -/
structure EdgeObs where
  /-- The command word transferred, if any. -/
  cmd : Option Nat
  /-- The dibit transferred, if any. -/
  din : Option Dibit
  /-- The symbol transferred, if any. -/
  dout : Option OutSymbol
  deriving DecidableEq, Repr

end Sys2Proof.Machine
end

