-- ==== Sys2Proof/Machine/State.lean ====
section
/-! DEFINITION. The state of the model: the block's nine registers, its configuration, and the host
agent's side of the ports (spec/60_exceptions.md rule R101: exactly two agents, block and host). -/

namespace Sys2Proof.Machine

/-- Why the machine stops with a fault. -/
inductive Fault where
  /-- Raised by every operation but `RESET`, at an edge with `rst = 0` before the first reset edge: "A model
  gives these registers no value (a read before the first reset is a fault of the model …)" (R31, I4).
  SAFE: the model stops where the block goes on with unspecified values. No run from `State.reset` meets it. -/
  | readBeforeFirstReset
  deriving DecidableEq, Repr

/-- Why a step has no meaning. -/
inductive Refusal where
  /-- An instruction with no meaning yet. Raised by no arm of this model. SAFE. -/
  | notModelled (mnemonic : String)
  /-- Raised by the step when the host's schedule puts on `cmd_len`, at a transfer, a number that does not fit
  `LEN_W` bits: "it spells no transfer" (R64, I9). SAFE: no host can drive it. -/
  | portWordOutOfRange
  /-- Raised by every operation but `RESET` at an edge with `rst = 0` when the host has withdrawn or changed an
  offer before its transfer: "outside the spec: which word, if any, the block takes is unsaid" (R110, I6).
  SAFE: the model stops where a block would take one word or none. -/
  | offerWithdrawn
  deriving DecidableEq, Repr

/-- The whole state. The block's own state is `regs` and nothing else (R15). The other fields are the build's
parameters and the model's own record of the host (notes/assumptions/1.md to 4.md). -/
structure State where
  /-- The build's parameters (R6, R7); no operation writes them. -/
  config : Config
  /-- The nine registers (R15). -/
  regs : Regs
  /-- An edge with `rst = 1` has happened (R31, R105). -/
  resetSeen : Bool
  /-- The host's choice of the input ports for the cycles to come, the coming one first (R101). -/
  inputs : List Ports
  /-- The command word offered in the last cycle and not taken, which the host must keep offering (R110). -/
  waitCmd : Option Nat
  /-- The dibit offered in the last cycle and not taken, which the host must keep offering (R110). -/
  waitDin : Option Dibit
  /-- What each edge so far has shown on the channels, the oldest first (R88, `emit`); entry `e` is edge `e` (R10). -/
  trace : List EdgeObs
  deriving DecidableEq, Repr

/-- The machine right after a reset edge, in the default build: the registers of R32, nothing offered yet. -/
def State.reset : State :=
  { config := standardConfig, regs := resetValues, resetSeen := true, inputs := [], waitCmd := none,
    waitDin := none, trace := [] }

end Sys2Proof.Machine
end

