-- ==== Sys2Proof/Machine/Operands.lean ====
section
/-! DEFINITION. Where an operation's operands come from: the ports of the coming cycle, the channel
handshakes (spec/30_encoding.md rules R51 to R62) and the operand assembly of R60. -/

namespace Sys2Proof.Machine

/-- The ports of a cycle the host's schedule does not list: it keeps what it is offering, offers nothing new,
and drives `rst = 0`, `err_clr = 0`, `dout_ready = 1`, the defaults of R64.
DESIGN CHOICE (notes/assumptions/5.md). -/
def restPorts (s : State) : Ports :=
  { rst := false
    cmdValid := s.waitCmd.isSome
    cmdLen := s.waitCmd.getD 0
    dinValid := s.waitDin.isSome
    dinDibit := s.waitDin.getD 0
    doutReady := true
    errClr := false }

/-- The input ports in the cycle before the coming edge (R10). -/
def cycle (s : State) : Ports :=
  match s.inputs with
  | p :: _ => p
  | [] => restPorts s

/-- The cycle with a command word offered on `cmd` (R51, R52). -/
def offerCmd (w : Nat) (p : Ports) : Ports := { p with cmdValid := true, cmdLen := w }

/-- The cycle with a dibit offered on `din` (R51, R54). -/
def offerDin (d : Dibit) (p : Ports) : Ports := { p with dinValid := true, dinDibit := d }

/-- The cycle with `err_clr = 1` (R56). -/
def assertErrClr (p : Ports) : Ports := { p with errClr := true }

/-- The cycle with `rst = 1` (R56). -/
def assertRst (p : Ports) : Ports := { p with rst := true }

/-- `can_load = (OV = 0) or (dout_ready = 1)` (R80). -/
def canLoad (p : Ports) (r : Regs) : Bool := !r.ov || p.doutReady

/-- `cmd_ready = (rst = 0) and (ST = IDLE) and can_load` (R67). -/
def cmdReady (p : Ports) (r : Regs) : Bool := !p.rst && decide (r.st = .idle) && canLoad p r

/-- `din_ready = (rst = 0) and (ST = RUN) and can_load` (R71). -/
def dinReady (p : Ports) (r : Regs) : Bool := !p.rst && decide (r.st = .run) && canLoad p r

/-- `dout_valid = (rst = 0) and (OV = 1)` (R81). -/
def doutValid (p : Ports) (r : Regs) : Bool := !p.rst && r.ov

/-- `fire(cmd)` (R51). -/
def fireCmd (p : Ports) (r : Regs) : Bool := p.cmdValid && cmdReady p r

/-- `fire(din)` (R51). -/
def fireDin (p : Ports) (r : Regs) : Bool := p.dinValid && dinReady p r

/-- `fire(dout)` (R51). -/
def fireDout (p : Ports) (r : Regs) : Bool := doutValid p r && p.doutReady

/-- The `dout` payload of the held symbol, `(OPH, I, Q, OREF, OLAST)` with `(I, Q) = MemRead(IQROM, OPH)` (R58, R81). -/
def heldSymbol (t : IqTable) (r : Regs) : OutSymbol :=
  { phase := r.oph, i := (iqRead t r.oph).i, q := (iqRead t r.oph).q, ref := r.oref, last := r.olast }

/-- The 3-bit phase adder, carry out discarded: `(zext_4(PHASE) + zext_4(code))[2:0]` (R72, R78). -/
def phaseAdd (p : Phase) (code : DeltaCode) : Phase :=
  (p.setWidth 4 + code.setWidth 4).extractLsb' 0 3

/-- `REM - 1` in a register of `LEN_W - 1` bits (R72, R19). It wraps only from 0, which R78 rules out. -/
def decRem (c : Config) (n : Nat) : Nat := (n + (2 ^ (c.lenW - 1) - 1)) % 2 ^ (c.lenW - 1)

/-- An offer that waits is still made, with its payload unchanged. -/
def offerKept {α : Type} [DecidableEq α] (wait : Option α) (valid : Bool) (payload : α) : Bool :=
  match wait with
  | none => true
  | some a => valid && decide (payload = a)

/-- The host's offers of the last cycle that were not taken are still offered, unchanged (R110). -/
def offersKept (p : Ports) (s : State) : Bool :=
  offerKept s.waitCmd p.cmdValid p.cmdLen && offerKept s.waitDin p.dinValid p.dinDibit

end Sys2Proof.Machine
end

