-- ==== Sys2Proof/Machine/Flags.lean ====
section
/-! DEFINITION. The two error flags `ERRS` and `ERRP` and the status outputs they drive (spec/10_state.md rules
R21, R22 and R25; spec/42_output_status.md rules R84 to R86). The block has no condition codes (R25). -/

namespace Sys2Proof.Machine

/-- The error flags at an edge with no odd-length command: `ERRP <- 0` (R22), and `ERRS <- 0` if `err_clr = 1` (R84). -/
def settleFlags (p : Ports) (r : Regs) : Regs :=
  { r with errs := r.errs && !p.errClr, errp := false }

/-- The error flags at an edge with an odd-length command: `ERRS <- 1`, which "takes priority over err_clr at this
edge", and `ERRP <- 1` (R69, R84 b). -/
def raiseFlags (r : Regs) : Regs := { r with errs := true, errp := true }

/-- `busy = (ST = RUN) or (OV = 1)` (R85). -/
def busy (r : Regs) : Bool := decide (r.st = .run) || r.ov

/-- `err_len = ERRS` (R86). -/
def errLen (r : Regs) : Bool := r.errs

/-- `err_len_pulse = ERRP` (R86). -/
def errLenPulse (r : Regs) : Bool := r.errp

end Sys2Proof.Machine
end

