-- ==== Sys2Proof/Machine/Ops.lean ====
section
/-! DEFINITION. The shared operations of an edge: loading and draining the holding register, taking the one error,
what a transfer on an input channel does to the registers, and closing an edge (spec/42_output_status.md rules R80 to
R88; spec/60_exceptions.md rule R91; spec/70_reset_and_hazards.md rule R102). Every register function reads the values
before the edge (R10: all writes of one edge take effect at once). -/

namespace Sys2Proof.Machine

/-- Load a symbol: `OV <- 1`, `OPH <- k`, `OREF <- ref`, `OLAST <- last` (R68, R72; R82: whether or not the previous
symbol is transferred at that edge). -/
def loadSymbol (k : Phase) (ref last : Bool) (r : Regs) : Regs :=
  { r with ov := true, oph := k, oref := ref, olast := last }

/-- Drain: `OV <- OV and not fire(dout)`; `OPH`, `OREF`, `OLAST` keep their values (R82). -/
def drain (p : Ports) (r : Regs) : Regs := { r with ov := r.ov && !fireDout p r }

/-- TAKING THE EXCEPTION InvalidInputLength, the block's only one and its "trap entry" (R91): `ERRS <- 1`,
`ERRP <- 1`, and no other register is written except that `OV` follows the drain rule. The block saves nothing (R89),
has no handler to go to (R94) and no return operation (R96: the next command is accepted as after any frame). -/
def raiseInvalidInputLength (p : Ports) (r : Regs) : Regs := raiseFlags (drain p r)

/-- `START` fires with `N = n`: the register transfer of R68. -/
def acceptStart (p : Ports) (n : Nat) (r : Regs) : Regs :=
  settleFlags p
    { loadSymbol 0 true (decide (n = 0)) r with
      phase := 0
      rem := n
      st := if n = 0 then .idle else .run }

/-- `START_ODD` fires: the register transfer of R69, which is the error of R91. -/
def acceptStartOdd (p : Ports) (r : Regs) : Regs := raiseInvalidInputLength p r

/-- A `CMD` word fires, whichever of the two operations it selects (R53). -/
def acceptCmd (c : Config) (p : Ports) (w : Nat) (r : Regs) : Regs :=
  if cmdFieldP w then acceptStartOdd p r else acceptStart p (cmdFieldN c w) r

/-- `DIBSTEP(d)` fires: the register transfer of R72. -/
def dibStep (c : Config) (p : Ports) (d : Dibit) (r : Regs) : Regs :=
  let k := phaseAdd r.phase (deltaRom d)
  settleFlags p
    { loadSymbol k false (decide (r.rem = 1)) r with
      phase := k
      rem := decRem c r.rem
      st := if r.rem = 1 then .idle else .run }

/-- No input transfer fires: the drain of R82, `ERRP <- 0` (R22), and `ERRCLR` if `err_clr = 1` (R84). -/
def quiet (p : Ports) (r : Regs) : Regs := settleFlags p (drain p r)

/-- What the `cmd` port does at an edge at which no dibit fires. -/
def cmdPort (c : Config) (p : Ports) (r : Regs) : Regs :=
  if fireCmd p r then acceptCmd c p p.cmdLen r else quiet p r

/-- What the `din` port does at an edge at which no command fires. -/
def dinPort (c : Config) (p : Ports) (r : Regs) : Regs :=
  if fireDin p r then dibStep c p p.dinDibit r else quiet p r

/-- The observation of an edge: the transfers and their payloads (R88, `emit`). -/
def observe (t : IqTable) (p : Ports) (r : Regs) : EdgeObs :=
  { cmd := if fireCmd p r then some p.cmdLen else none
    din := if fireDin p r then some p.dinDibit else none
    dout := if fireDout p r then some (heldSymbol t r) else none }

/-- An edge with `rst = 1`: every register takes its reset value (R102), no transfer happens on any channel (R103), and
the host may withdraw its offers (R110). The configuration is kept (R35). -/
def resetEdge (s : State) : State :=
  { config := s.config
    regs := resetValues
    resetSeen := true
    inputs := s.inputs.tail
    waitCmd := none
    waitDin := none
    trace := s.trace ++ [{ cmd := none, din := none, dout := none }] }

/-- An edge with `rst = 0` after which the registers are `r'`: the cycle's ports are used up, the transfers are
observed, and an offer not taken is remembered (R110). -/
def closeEdge (p : Ports) (s : State) (r' : Regs) : State :=
  { config := s.config
    regs := r'
    resetSeen := s.resetSeen
    inputs := s.inputs.tail
    waitCmd := if p.cmdValid && !fireCmd p s.regs then some p.cmdLen else none
    waitDin := if p.dinValid && !fireDin p s.regs then some p.dinDibit else none
    trace := s.trace ++ [observe s.config.iqTable p s.regs] }

/-- One edge in a cycle with ports `p`, after which the registers are `r'` unless `rst = 1`, where reset alone applies
(R95, R102). Before the first reset the registers hold no value to read (R31); a host that broke its offer is outside
the spec (R110). -/
def atEdge (p : Ports) (s : State) (r' : Regs) : Host.Outcome State Fault Refusal :=
  if p.rst then .next (resetEdge s)
  else if !s.resetSeen then .fault .readBeforeFirstReset
  else if !offersKept p s then .refused .offerWithdrawn
  else .next (closeEdge p s r')

end Sys2Proof.Machine
end

