-- ==== Sys2Proof/Machine/Control.lean ====
section
/-! DEFINITION. The two control operations: `ERRCLR` (spec/42_output_status.md rule R84) and `RESET`
(spec/70_reset_and_hazards.md rules R102 to R104). -/

namespace Sys2Proof.Machine

/-- `ERRCLR` (R84): the edge with `err_clr = 1`. It has no handshake and never waits; it writes nothing but `ERRS`, and
the cycle's transfers happen as they stand. An odd command at the same edge wins. -/
def execErrclr (s : State) : Host.Outcome State Fault Refusal :=
  let p := assertErrClr (cycle s)
  atEdge p s
    (if fireCmd p s.regs then acceptCmd s.config p p.cmdLen s.regs
     else dinPort s.config p s.regs)

/-- `RESET` (R102): the edge with `rst = 1`, whatever else the cycle's ports carry (R103). -/
def execReset (s : State) : Host.Outcome State Fault Refusal := .next (resetEdge s)

end Sys2Proof.Machine
end

