-- ==== Sys2Proof/Machine/DibitSymbol.lean ====
section
/-! DEFINITION. The operations of the `din` channel (spec/41_dibit_symbol.md rules R71 to R79), four instances of one
step. -/

namespace Sys2Proof.Machine

/-- A dibit operation. Accepted when `din_ready = 1`, and then it performs `DIBSTEP(d)` (R72); otherwise the offer waits
(R71), and the edge does what its other ports do. -/
def dibOperation (d : Dibit) (s : State) : Host.Outcome State Fault Refusal :=
  let p := offerDin d (cycle s)
  atEdge p s
    (if dinReady p s.regs then dibStep s.config p d s.regs
     else cmdPort s.config p s.regs)

/-- `DIB00`: `DIBSTEP(0)`, delta +1 (R73). -/
def execDib00 (s : State) : Host.Outcome State Fault Refusal := dibOperation 0b00#2 s

/-- `DIB01`: `DIBSTEP(1)`, delta +3 (R74). -/
def execDib01 (s : State) : Host.Outcome State Fault Refusal := dibOperation 0b01#2 s

/-- `DIB10`: `DIBSTEP(2)`, delta −1 (R75). -/
def execDib10 (s : State) : Host.Outcome State Fault Refusal := dibOperation 0b10#2 s

/-- `DIB11`: `DIBSTEP(3)`, delta −3 (R76). -/
def execDib11 (s : State) : Host.Outcome State Fault Refusal := dibOperation 0b11#2 s

end Sys2Proof.Machine
end

