-- ==== Sys2Proof/Machine/FrameControl.lean ====
section
/-! DEFINITION. The operations of the `cmd` channel (spec/40_frame_control.md rules R67 to R70). The meaning of an
operation is the edge of the coming cycle with the operation's word offered on its channel; the cycle's other ports act
as they stand (R95 (3): all other effects of one edge are independent and all happen). -/

namespace Sys2Proof.Machine

/-- `START` (R68). Accepted when `cmd_ready = 1`; otherwise the offer waits (R67), and the edge does what its other
ports do. -/
def execStart (n : Nat) (s : State) : Host.Outcome State Fault Refusal :=
  let p := offerCmd (encode (.start n)) (cycle s)
  atEdge p s
    (if cmdReady p s.regs then acceptStart p (cmdFieldN s.config p.cmdLen) s.regs
     else dinPort s.config p s.regs)

/-- `START_ODD` (R69). Accepted when `cmd_ready = 1`, and then it raises InvalidInputLength (R89); otherwise the offer
waits (R67). Its field `N` is ignored. -/
def execStartOdd (n : Nat) (s : State) : Host.Outcome State Fault Refusal :=
  let p := offerCmd (encode (.startOdd n)) (cycle s)
  atEdge p s
    (if cmdReady p s.regs then acceptStartOdd p s.regs
     else dinPort s.config p s.regs)

end Sys2Proof.Machine
end

