-- ==== Sys2Proof/Machine/Dispatch.lean ====
section
/-! DEFINITION. One arm per operation of spec/30_encoding.md rule R66. -/

namespace Sys2Proof.Machine

/-- The edge of the coming cycle at which operation `i` is offered. -/
def exec (i : Instr) (s : State) : Host.Outcome State Fault Refusal :=
  match i with
  | .start n => Sys2Proof.Machine.execStart n s
  | .startOdd n => Sys2Proof.Machine.execStartOdd n s
  | .dib00 => Sys2Proof.Machine.execDib00 s
  | .dib01 => Sys2Proof.Machine.execDib01 s
  | .dib10 => Sys2Proof.Machine.execDib10 s
  | .dib11 => Sys2Proof.Machine.execDib11 s
  | .errclr => Sys2Proof.Machine.execErrclr s
  | .reset => Sys2Proof.Machine.execReset s

end Sys2Proof.Machine
end

