-- ==== Sys2Proof/Machine/Fetch.lean ====
section
/-! DEFINITION. Which input word the coming edge takes. The block has no program counter and fetches nothing
(spec/10_state.md rule R17): "The order of work is the order of transfers on the input channels, not a fetched
program." Its analogue of a fetch is the word that fires at the edge. -/

namespace Sys2Proof.Machine

/-- The word the coming edge takes and the channel it arrives on: `rst` before all else (R95 (1)); then the command or
the dibit that fires, never both (R88); then a strobe of `err_clr`; `none` when the edge takes no input. A word that is
not transferred is not read (R62). -/
def fetch (s : State) : Option (Channel × Nat) :=
  let p := cycle s
  if p.rst then some (.rst, 1)
  else if fireCmd p s.regs then some (.cmd, p.cmdLen)
  else if fireDin p s.regs then some (.din, p.dinDibit.toNat)
  else if p.errClr then some (.errClr, 1)
  else none

/-- An edge that takes no input word: the holding register drains and `ERRP` falls (R82, R22). -/
def idleEdge (s : State) : Host.Outcome State Fault Refusal :=
  atEdge (cycle s) s (quiet (cycle s) s.regs)

/-- The ports of a cycle in which the host offers one word and takes any symbol held. -/
def offerPorts (ch : Channel) (w : Nat) : Ports :=
  { rst := decide (ch = .rst) && decide (w % 2 = 1)
    cmdValid := decide (ch = .cmd)
    cmdLen := if ch = .cmd then w else 0
    dinValid := decide (ch = .din)
    dinDibit := if ch = .din then BitVec.ofNat 2 w else 0
    doutReady := true
    errClr := decide (ch = .errClr) && decide (w % 2 = 1) }

/-- The registers from which a word on `ch` fires at the next edge: a command needs no frame open (R67), a dibit needs
an open frame (R71), which is given one dibit to take if none is due. A control input needs nothing. -/
def openFor (ch : Channel) (r : Regs) : Regs :=
  match ch with
  | .cmd => if r.st = .idle then r else { r with st := .idle, rem := 0 }
  | .din => if r.st = .run then r else { r with st := .run, rem := 1 }
  | .errClr => r
  | .rst => r

/-- `s` with one word offered in the coming cycle, so that the next edge takes it. -/
def offerNext (ch : Channel) (w : Nat) (s : State) : State :=
  { s with
    regs := openFor ch s.regs
    resetSeen := true
    inputs := offerPorts ch w :: s.inputs
    waitCmd := none
    waitDin := none }

end Sys2Proof.Machine
end

