-- ==== Sys2Proof/Machine/Step.lean ====
section
/-! DEFINITION. One step: one edge (spec/42_output_status.md rule R88, spec/00_scope.md rule R10). -/

namespace Sys2Proof.Machine

/-- One edge: take the word that fires, decode it by its channel, and run it; with no word, the idle edge. A word that does
not decode is refused before anything else is asked of the edge, also before the first reset and of a changed offer: WHICH OF
TWO STOPS such an edge meets is the model's DESIGN CHOICE (notes/assumptions/2.md, 6.md). -/
def step (s : State) : Host.Outcome State Fault Refusal :=
  match fetch s with
  | some (ch, w) =>
    match decode s.config ch w with
    | .ok i => exec i s
    | .error _ => .refused .portWordOutOfRange
  | none => idleEdge s

/-- `s` with the table word offered in the coming cycle (notes/assumptions/9.md): the host then runs it from reset. -/
def State.withFetchWord (s : State) (nbits w : Nat) : State :=
  match tableWordChannel nbits with
  | some ch => offerNext ch w s
  | none => s

end Sys2Proof.Machine
end

