-- ==== Sys2Proof/Machine/EdgeStep.lean ====
section
/-! DEFINITION. The complete step of one edge as ONE function, transcribed line by line from
spec/42_output_status.md rule R88. The machine's `step` does not call it: it is the clear definition that claims compare
the machine with. -/

namespace Sys2Proof.Machine

/-- `S' = step(S, in)` and `emit(…)` of R88, for a build `c`, registers `S` and input ports `i`. -/
def edgeStep (c : Config) (S : Regs) (i : Ports) : Regs × EdgeObs :=
  let can_load := S.ov = false ∨ i.doutReady = true
  let cmd_ready := i.rst = false ∧ S.st = .idle ∧ can_load
  let din_ready := i.rst = false ∧ S.st = .run ∧ can_load
  let dout_valid := i.rst = false ∧ S.ov = true
  let fire_cmd := i.cmdValid = true ∧ cmd_ready
  let fire_din := i.dinValid = true ∧ din_ready
  let fire_dout := dout_valid ∧ i.doutReady = true
  let emit : EdgeObs :=
    { cmd := if fire_cmd then some i.cmdLen else none
      din := if fire_din then some i.dinDibit else none
      dout :=
        if fire_dout then
          some
            { phase := S.oph, i := (iqRead c.iqTable S.oph).i, q := (iqRead c.iqTable S.oph).q,
              ref := S.oref, last := S.olast }
        else none }
  if i.rst = true then
    ({ st := .idle, phase := 0, rem := 0, ov := false, oph := 0, oref := false, olast := false,
       errs := false, errp := false }, emit)
  else
    let odd := fire_cmd ∧ i.cmdLen % 2 = 1
    let S₁ : Regs :=
      if fire_cmd ∧ ¬odd then
        let N := i.cmdLen / 2
        { S with
          phase := 0, rem := N, ov := true, oph := 0, oref := true, olast := decide (N = 0),
          st := if N = 0 then .idle else .run }
      else if fire_din then
        let p := BitVec.ofNat 3 ((S.phase.toNat + (deltaRom i.dinDibit).toNat) % 8)
        { S with
          phase := p, ov := true, oph := p, oref := false, olast := decide (S.rem = 1),
          rem := if S.rem = 0 then 2 ^ (c.lenW - 1) - 1 else S.rem - 1
          st := if S.rem = 1 then .idle else .run }
      else
        { S with ov := S.ov && !decide fire_dout }
    let S₂ : Regs := { S₁ with errp := decide odd }
    ((if odd then { S₂ with errs := true }
      else if i.errClr = true then { S₂ with errs := false }
      else S₂), emit)

end Sys2Proof.Machine
end

