-- ==== Sys2Proof/Machine/Outputs.lean ====
section
/-! DEFINITION. The output ports (spec/30_encoding.md rule R57), combinational functions of the registers and the
inputs of the current cycle (spec/00_scope.md rule R10). -/

namespace Sys2Proof.Machine

/-- The output ports of R57 in one cycle. -/
structure OutPorts where
  /-- `cmd_ready` (R67). -/
  cmdReady : Bool
  /-- `din_ready` (R71). -/
  dinReady : Bool
  /-- `dout_valid` (R81). -/
  doutValid : Bool
  /-- `(dout_phase, dout_i, dout_q, dout_ref, dout_last)`, driven always; it carries no meaning while `dout_valid = 0`
  (R81, R20, I5). -/
  dout : OutSymbol
  /-- `err_len` (R86). -/
  errLen : Bool
  /-- `err_len_pulse` (R86). -/
  errLenPulse : Bool
  /-- `busy` (R85). -/
  busy : Bool
  deriving DecidableEq, Repr

/-- The output ports, of registers that hold a value. -/
def outPorts (t : IqTable) (p : Ports) (r : Regs) : OutPorts :=
  { cmdReady := cmdReady p r
    dinReady := dinReady p r
    doutValid := doutValid p r
    dout := heldSymbol t r
    errLen := errLen r
    errLenPulse := errLenPulse r
    busy := busy r }

/-- The output ports in the cycle before the coming edge. Before the first reset edge "register values are
unspecified …, and so are every output" (R105): there is none to read. -/
def outputs (s : State) : Option OutPorts :=
  if s.resetSeen then some (outPorts s.config.iqTable (cycle s) s.regs) else none

/-- Quiescent: `ST = IDLE` and `OV = 0` (R115). -/
def quiescent (r : Regs) : Bool := decide (r.st = .idle) && !r.ov

end Sys2Proof.Machine
end

