-- ==== Sys2Proof/Machine/Reference.lean ====
section
/-! DEFINITION. The source's function `ENC(bits)` (spec/00_scope.md rule R3) in exact integers, apart from the block: its
deltas are the signed ones, and its modulo is the mathematical one of R11. -/

namespace Sys2Proof.Machine

/-- The signed delta of a dibit, in units of π/4: `{0:+1, 1:+3, 2:−1, 3:−3}` (R36). -/
def delta (d : Nat) : Int :=
  match d with
  | 0 => 1
  | 1 => 3
  | 2 => -1
  | _ => -3

/-- `dibit = 2*b0 + b1`: the first bit is the high bit (R3, R38). -/
def dibitIndex (b0 b1 : Bool) : Nat := 2 * b0.toNat + b1.toNat

/-- The dibit word of a pair of bits in stream order (R54). -/
def dibitWord (b0 b1 : Bool) : Dibit := BitVec.ofNat 2 (dibitIndex b0 b1)

/-- The consecutive, non-overlapping pairs of a bit sequence, in order (R44); an odd last bit pairs with nothing. -/
def dibitsOf : List Bool → List Dibit
  | b0 :: b1 :: rest => dibitWord b0 b1 :: dibitsOf rest
  | _ => []

/-- The phases the loop of `ENC` reads after the reference symbol, from an accumulated phase (R3; `mod8` of R11). -/
def encPhases : Int → List Bool → List Nat
  | phase, b0 :: b1 :: rest =>
    let phase' := (phase + delta (dibitIndex b0 b1)) % 8
    phase'.toNat :: encPhases phase' rest
  | _, _ => []

/-- The source's only failure (R3, R89). -/
inductive EncError where
  | invalidInputLength
  deriving DecidableEq, Repr

/-- `ENC(bits)` as phase indices: fail on an odd length, else 0 and then one phase per dibit (R3). -/
def encIndices (bits : List Bool) : Except EncError (List Nat) :=
  if bits.length % 2 = 1 then .error .invalidInputLength else .ok (0 :: encPhases 0 bits)

/-- `ENC(bits)` of R3, with `IQ = t`. -/
def enc (t : IqTable) (bits : List Bool) : Except EncError (List IqPoint) :=
  match encIndices bits with
  | .ok ks => .ok (ks.map fun k => iqRead t (BitVec.ofNat 3 k))
  | .error e => .error e

end Sys2Proof.Machine
end

