-- ==== Sys2Proof/Machine/Script.lean ====
section
/-! DEFINITION. The script syntax and the script host (spec/30_encoding.md rules R64 and R65): a tool's text, the
operations its lines spell, and the host that drives the ports from them. -/

namespace Sys2Proof.Machine

/-- One operation a script line spells (R64). -/
inductive ScriptOp where
  /-- `START <L>`: one `cmd` transfer with `cmd_len = L`. -/
  | start (len : Nat)
  /-- `DIB <b0><b1>`: one `din` transfer. -/
  | dib (d : Dibit)
  /-- `@<e> ERRCLR`: `err_clr = 1` in the cycle before edge `e`. -/
  | errClrAt (e : Nat)
  /-- `@<e> RESET`: `rst = 1` in the cycle before edge `e`. -/
  | resetAt (e : Nat)
  /-- `@<e> DOUT_READY <v>`: from the cycle before edge `e` on, `dout_ready = v`. -/
  | doutReadyAt (e : Nat) (v : Bool)
  deriving DecidableEq, Repr

/-- Why the tool refuses a line. -/
inductive ScriptError where
  /-- A `START` whose `L` does not fit `LEN_W` bits (R64). -/
  | lengthDoesNotFit
  /-- A `DIB` whose operand is not two digits 0 or 1 (R64). -/
  | badDibit
  /-- A line of no form of R64 or R65. -/
  | badLine
  deriving DecidableEq, Repr

/-- The operations of `ENCODE <bits>`: `START n`, and for an even `n` the dibits; an odd `ENCODE` sends none (R65). -/
def encodeOps (bits : List Bool) : List ScriptOp :=
  .start bits.length :: (if bits.length % 2 = 0 then (dibitsOf bits).map .dib else [])

/-- The text before the comment sign. -/
def stripComment : List Char → List Char
  | [] => []
  | c :: cs => if c = ';' then [] else c :: stripComment cs

/-- The words of a line; `cur` is the word being read, reversed. -/
def wordsFrom (cur : List Char) : List Char → List (List Char)
  | [] => if cur = [] then [] else [cur.reverse]
  | c :: cs =>
    if c = ' ' ∨ c = '\t' then
      (if cur = [] then wordsFrom [] cs else cur.reverse :: wordsFrom [] cs)
    else wordsFrom (c :: cur) cs

/-- The value of a digit character in a base of at most 16. -/
def digitValue (base : Nat) (c : Char) : Option Nat :=
  let n := c.toNat
  let v :=
    if 48 ≤ n ∧ n ≤ 57 then n - 48
    else if 97 ≤ n ∧ n ≤ 102 then n - 87
    else if 65 ≤ n ∧ n ≤ 70 then n - 55
    else 16
  if v < base then some v else none

/-- The value of a run of digits, after `acc`. -/
def digitsValue (base acc : Nat) : List Char → Option Nat
  | [] => some acc
  | c :: cs =>
    match digitValue base c with
    | some v => digitsValue base (base * acc + v) cs
    | none => none

/-- A number in decimal, or in hexadecimal after `0x` (R64). -/
def parseNumber : List Char → Option Nat
  | [] => none
  | '0' :: 'x' :: c :: cs => digitsValue 16 0 (c :: cs)
  | cs => digitsValue 10 0 cs

/-- A bit character. -/
def parseBit (c : Char) : Option Bool :=
  if c = '0' then some false else if c = '1' then some true else none

/-- A string of bit characters. -/
def parseBits : List Char → Option (List Bool)
  | [] => some []
  | c :: cs =>
    match parseBit c, parseBits cs with
    | some b, some bs => some (b :: bs)
    | _, _ => none

/-- `START <L>`, refused where `L` does not fit `LEN_W` bits. -/
def startOp (c : Config) (n : Nat) : Except ScriptError (List ScriptOp) :=
  if n < 2 ^ c.lenW then .ok [.start n] else .error .lengthDoesNotFit

/-- `ENCODE <bits>`, whose `START` must fit as any other. -/
def encodeLine (c : Config) (bits : List Bool) : Except ScriptError (List ScriptOp) :=
  if bits.length < 2 ^ c.lenW then .ok (encodeOps bits) else .error .lengthDoesNotFit

/-- The operations one line of a script spells (R64, R65); a blank line spells none. -/
def parseLine (c : Config) (line : List Char) : Except ScriptError (List ScriptOp) :=
  match wordsFrom [] (stripComment line) with
  | [] => .ok []
  | [['S', 'T', 'A', 'R', 'T'], len] =>
    match parseNumber len with
    | some n => startOp c n
    | none => .error .badLine
  | [['D', 'I', 'B'], ds] =>
    match parseBits ds with
    | some [b0, b1] => .ok [.dib (dibitWord b0 b1)]
    | _ => .error .badDibit
  | [['E', 'N', 'C', 'O', 'D', 'E']] => encodeLine c []
  | [['E', 'N', 'C', 'O', 'D', 'E'], bs] =>
    match parseBits bs with
    | some bits => encodeLine c bits
    | none => .error .badLine
  | ['@' :: e, ['E', 'R', 'R', 'C', 'L', 'R']] =>
    match parseNumber e with
    | some n => .ok [.errClrAt n]
    | none => .error .badLine
  | ['@' :: e, ['R', 'E', 'S', 'E', 'T']] =>
    match parseNumber e with
    | some n => .ok [.resetAt n]
    | none => .error .badLine
  | ['@' :: e, ['D', 'O', 'U', 'T', '_', 'R', 'E', 'A', 'D', 'Y'], [v]] =>
    match parseNumber e, parseBit v with
    | some n, some b => .ok [.doutReadyAt n b]
    | _, _ => .error .badLine
  | _ => .error .badLine

/-- The operations of a script, in order. The first refused line refuses the whole script: R64 says that such a line "spells
no transfer" and leaves open whether the script's other lines still run. DESIGN CHOICE (notes/assumptions/12.md). -/
def parseScript (c : Config) : List (List Char) → Except ScriptError (List ScriptOp)
  | [] => .ok []
  | line :: rest =>
    match parseLine c line with
    | .error e => .error e
    | .ok ops =>
      match parseScript c rest with
      | .error e => .error e
      | .ok more => .ok (ops ++ more)

/-- The script host (R64, "Execution convention of a script"): its two queues and what its `@` lines drive. -/
structure ScriptHost where
  /-- The `START` lines not yet transferred, in script order. -/
  starts : List Nat
  /-- The `DIB` lines not yet transferred, in script order. -/
  dibs : List Dibit
  /-- The edges of the `@<e> ERRCLR` lines. -/
  errClrs : List Nat
  /-- The edges of the `@<e> RESET` lines. -/
  resets : List Nat
  /-- The `@<e> DOUT_READY <v>` lines, in script order. -/
  doutReadys : List (Nat × Bool)
  deriving DecidableEq, Repr

/-- The host of a list of operations. -/
def scriptHost : List ScriptOp → ScriptHost
  | [] => { starts := [], dibs := [], errClrs := [], resets := [], doutReadys := [] }
  | op :: rest =>
    let h := scriptHost rest
    match op with
    | .start n => { h with starts := n :: h.starts }
    | .dib d => { h with dibs := d :: h.dibs }
    | .errClrAt e => { h with errClrs := e :: h.errClrs }
    | .resetAt e => { h with resets := e :: h.resets }
    | .doutReadyAt e v => { h with doutReadys := (e, v) :: h.doutReadys }

/-- `dout_ready` in the cycle before edge `e`: the line with the greatest edge not after `e` (the later line of two at
one edge), and 1 if there is none. `best` is the line chosen so far. -/
def readyFrom (e : Nat) (best : Nat × Bool) : List (Nat × Bool) → Bool
  | [] => best.2
  | l :: rest => if l.1 ≤ e ∧ best.1 ≤ l.1 then readyFrom e l rest else readyFrom e best rest

/-- The ports the script host drives in the cycle before edge `e`; it offers the heads of its queues "in every cycle
after the first reset". -/
def scriptPorts (h : ScriptHost) (e : Nat) (resetSeen : Bool) : Ports :=
  { rst := decide (e ∈ h.resets)
    cmdValid := resetSeen && !h.starts.isEmpty
    cmdLen := h.starts.headD 0
    dinValid := resetSeen && !h.dibs.isEmpty
    dinDibit := h.dibs.headD 0
    doutReady := readyFrom e (0, true) h.doutReadys
    errClr := decide (e ∈ h.errClrs) }

/-- The host removes the head of a queue at its transfer. -/
def scriptTaken (h : ScriptHost) (p : Ports) (r : Regs) : ScriptHost :=
  { h with
    starts := if fireCmd p r then h.starts.tail else h.starts
    dibs := if fireDin p r then h.dibs.tail else h.dibs }

/-- Edge `e` of a script's run: the host drives the ports, the block steps, the host removes what was taken. -/
def scriptEdge (h : ScriptHost) (e : Nat) (s : State) : Host.Outcome (ScriptHost × State) Fault Refusal :=
  let p := scriptPorts h e s.resetSeen
  match step { s with inputs := [p] } with
  | .next t => .next (scriptTaken h p s.regs, t)
  | .fault f => .fault f
  | .refused r => .refused r

/-- `n` edges of a script's run from edge `e` on. -/
def scriptRun (h : ScriptHost) (e : Nat) (s : State) : Nat → Host.Outcome (ScriptHost × State) Fault Refusal
  | 0 => .next (h, s)
  | n + 1 =>
    match scriptEdge h e s with
    | .next (h', t) => scriptRun h' (e + 1) t n
    | .fault f => .fault f
    | .refused r => .refused r

/-- The machine at power-on: "register values are unspecified" (R105), so they are `r`, whatever it is, and no reset
edge has happened. -/
def powerOn (c : Config) (r : Regs) : State :=
  { config := c, regs := r, resetSeen := false, inputs := [], waitCmd := none, waitDin := none, trace := [] }

end Sys2Proof.Machine
end

