-- ==== Sys2Proof/Machine/RunEnd.lean ====
section
/-! DEFINITION. The end of a run and its result (spec/70_reset_and_hazards.md rule R115), for a host that is a schedule
and for the script host. -/

namespace Sys2Proof.Machine

/-- The symbols a stretch of a trace shows delivered, in order. -/
def delivered (es : List EdgeObs) : List OutSymbol := es.filterMap (·.dout)

/-- The host "has nothing left to offer on `cmd` or `din`" (R115): no offer waits, and no cycle of its schedule makes
one. DEDUCED (notes/assumptions/14.md). -/
def nothingToOffer (s : State) : Bool :=
  s.waitCmd.isNone && s.waitDin.isNone && s.inputs.all fun p => !p.cmdValid && !p.dinValid

/-- "A run ends when the block is quiescent and the host has nothing left to offer on `cmd` or `din`" (R115). Before the
first reset edge no register can be relied on (R105), and no run has ended. -/
def runEnded (s : State) : Bool := s.resetSeen && quiescent s.regs && nothingToOffer s

/-- The result of a run: "the sequence of `dout` transfers, the final `err_len`, and the final registers" (R115). -/
structure RunResult where
  /-- The `dout` transfers, the first first. -/
  symbols : List OutSymbol
  /-- The final `err_len`. -/
  errLen : Bool
  /-- The final registers. -/
  regs : Regs
  deriving DecidableEq, Repr

/-- What a run that ends in `s` results in. -/
def resultAt (s : State) : RunResult :=
  { symbols := delivered s.trace, errLen := errLen s.regs, regs := s.regs }

/-- The result of the run up to `s`: none while it is not over. -/
def runResult (s : State) : Option RunResult := if runEnded s then some (resultAt s) else none

/-- Run to the end, or for `n` edges if the run does not end before. -/
def runToEnd : Nat → State → Host.Outcome State Fault Refusal
  | 0, s => .next s
  | n + 1, s =>
    if runEnded s then .next s
    else
      match step s with
      | .next t => runToEnd n t
      | .fault f => .fault f
      | .refused r => .refused r

/-- The end of a script's run (R115): what the script host has left to offer is in its two queues (R64). -/
def scriptEnded (h : ScriptHost) (s : State) : Bool :=
  s.resetSeen && quiescent s.regs && h.starts.isEmpty && h.dibs.isEmpty

/-- The result of a script's run up to `s`: none while it is not over. -/
def scriptResult (h : ScriptHost) (s : State) : Option RunResult :=
  if scriptEnded h s then some (resultAt s) else none

/-- Run a script from edge `e` on to the end of its run, or for `n` edges if it does not end before. -/
def scriptToEnd (h : ScriptHost) (e : Nat) (s : State) : Nat → Host.Outcome (ScriptHost × State) Fault Refusal
  | 0 => .next (h, s)
  | n + 1 =>
    if scriptEnded h s then .next (h, s)
    else
      match scriptEdge h e s with
      | .next (h', t) => scriptToEnd h' (e + 1) t n
      | .fault f => .fault f
      | .refused r => .refused r

end Sys2Proof.Machine
end

