-- ==== Sys2Proof/Safety.lean ====
section
/-! DEFINITION. The terms claims use: the invariant of the registers, a cycle in which the block may be relied on, what a
trace shows, and runs. -/

namespace Sys2Proof.Safety

open Sys2Proof.Machine

/-- The register invariant of spec/10_state.md rules R26 and R28, with the width of `REM` (R19) and the marks of the held
symbol: a reference symbol is at phase 0 while it is held. -/
structure RegsInv (c : Config) (r : Regs) : Prop where
  /-- `ST = IDLE` implies `REM = 0` (R26). -/
  idle_rem : r.st = .idle → r.rem = 0
  /-- `ST = RUN` implies `REM >= 1` (R26). -/
  run_rem : r.st = .run → 1 ≤ r.rem
  /-- `REM` fits `LEN_W - 1` bits (R19). -/
  rem_fits : r.rem < 2 ^ (c.lenW - 1)
  /-- `OPH = PHASE` (R28). -/
  oph_phase : r.oph = r.phase
  /-- `OV = 1` with `OREF = 1` implies `OPH = 0` (R28). -/
  ref_phase : r.ov = true → r.oref = true → r.oph = 0

/-- A cycle with ports `p` in which what the block does is said: a reset edge has happened (R105), this is none, and the
host has kept its offers (R110). -/
abbrev Live (p : Ports) (s : State) : Prop := s.resetSeen = true ∧ p.rst = false ∧ offersKept p s = true

/-- The ports of a cycle in which operation `i` is offered beside whatever else the cycle's ports carry (R51, R56). -/
def drive (i : Instr) (p : Ports) : Ports :=
  match i with
  | .start n => offerCmd (encode (.start n)) p
  | .startOdd n => offerCmd (encode (.startOdd n)) p
  | .dib00 => offerDin 0b00#2 p
  | .dib01 => offerDin 0b01#2 p
  | .dib10 => offerDin 0b10#2 p
  | .dib11 => offerDin 0b11#2 p
  | .errclr => assertErrClr p
  | .reset => assertRst p

/-- The word on `cmd_len` fits its wires, or is not transferred. -/
abbrev CmdFits (c : Config) (p : Ports) (r : Regs) : Prop := fireCmd p r = true → p.cmdLen < 2 ^ c.lenW

/-- The symbols held: none or one (R20). -/
def held (t : IqTable) (r : Regs) : List OutSymbol := if r.ov then [heldSymbol t r] else []

/-- The command words a stretch of a trace shows accepted, in order. -/
def acceptedCmds (es : List EdgeObs) : List Nat := es.filterMap (·.cmd)
/-- The dibits a stretch of a trace shows accepted, in order. -/
def acceptedDins (es : List EdgeObs) : List Dibit := es.filterMap (·.din)

/-- What the machine's edges from `s` to `t` have added to the trace. -/
def newEdges (s t : State) : List EdgeObs := t.trace.drop s.trace.length

/-- `k` steps of the machine, stopping at the first that has no next state. -/
def runSteps : Nat → State → Host.Outcome State Fault Refusal
  | 0, s => .next s
  | k + 1, s =>
    match step s with
    | .next t => runSteps k t
    | .fault f => .fault f
    | .refused r => .refused r

/-- The `dout` payload with `ref = 1` of a frame of `n` dibits: phase 0 (R68). -/
def referenceSymbol (t : IqTable) (n : Nat) : OutSymbol :=
  { phase := 0, i := (iqRead t 0).i, q := (iqRead t 0).q, ref := true, last := decide (n = 0) }

/-- The `dout` payload of a data symbol at phase `k` (R72). -/
def dataSymbol (t : IqTable) (k : Phase) (last : Bool) : OutSymbol :=
  { phase := k, i := (iqRead t k).i, q := (iqRead t k).q, ref := false, last := last }

/-- The data symbols of dibits `ds`, from an accumulated phase and with `n` dibits due (R79). -/
def dataSymbols (t : IqTable) (phase : Int) (n : Nat) : List Dibit → List OutSymbol
  | [] => []
  | d :: ds =>
    let phase' := (phase + delta d.toNat) % 8
    dataSymbol t (BitVec.ofInt 3 phase') (decide (n = 1)) :: dataSymbols t phase' (n - 1) ds

/-- The frame a command of `2 * ds.length` bits and the dibits `ds` make on `dout` (R70). -/
def frameSymbols (t : IqTable) (ds : List Dibit) : List OutSymbol :=
  referenceSymbol t ds.length :: dataSymbols t 0 ds.length ds

/-- The symbols the transfers of a stretch of a trace form, from an accumulated phase and with `n` dibits due: a reference
symbol per even command, none for an odd one, and a data symbol per dibit (R46). -/
def formedSymbols (t : IqTable) (phase : Int) (n : Nat) : List EdgeObs → List OutSymbol
  | [] => []
  | e :: es =>
    match e.cmd, e.din with
    | some w, _ =>
      if w % 2 = 0 then referenceSymbol t (w / 2) :: formedSymbols t 0 (w / 2) es
      else formedSymbols t phase n es
    | none, some d =>
      let phase' := (phase + delta d.toNat) % 8
      dataSymbol t (BitVec.ofInt 3 phase') (decide (n = 1)) :: formedSymbols t phase' (n - 1) es
    | none, none => formedSymbols t phase n es

/-- The coming `k` cycles are listed in the host's schedule, and each of them meets `q`. -/
def NextCycles (k : Nat) (q : Ports → Bool) (s : State) : Prop :=
  k ≤ s.inputs.length ∧ ∀ p ∈ s.inputs.take k, q p = true

/-- The script host still holds, at the heads of its queues, the offers it has made, and every `START` it holds fits the
port (R64). -/
def ScriptAgrees (h : ScriptHost) (s : State) : Prop :=
  (∀ w, s.waitCmd = some w → h.starts.head? = some w) ∧
  (∀ d, s.waitDin = some d → h.dibs.head? = some d) ∧
  (∀ n ∈ h.starts, n < 2 ^ s.config.lenW)

/-- A cycle in which the host offers a command word and a dibit and takes any symbol. -/
def eagerCycle (w : Nat) (d : Dibit) : Ports :=
  { rst := false, cmdValid := true, cmdLen := w, dinValid := true, dinDibit := d, doutReady := true, errClr := false }

/-- The coming cycles of a host that offers every word as early as it can and always takes a symbol (R114): a command
word, then a frame's dibits, with the next command offered from the second cycle on and a dibit offered in every cycle. -/
def eagerCycles (w : Nat) (ds : List Dibit) (next : Nat) (after : Dibit) : List Ports :=
  eagerCycle w (ds.headD after) :: (ds ++ [after]).map (eagerCycle next)

end Sys2Proof.Safety
end

