-- ==== Sys2Proof/Certificates/Slice0/Obligations.lean ====
section
/-! DEFINITION. The statements for the provers. Each is about the machine of Sys2Proof/Machine, in the terms of
Sys2Proof/Safety.lean; each docstring names the rules of spec/ it formalises. `cycle s` is the ports of the coming cycle,
whatever they are, and `drive i (cycle s)` is that cycle with operation `i` offered in it. Where a statement gives the fields
`inputs`, `waitCmd`, `waitDin` and `trace`, it says what the model's own record of the host becomes (notes/assumptions/3.md,
4.md); the rules cited speak of the registers and the transfers. -/

open Sys2Proof Sys2Proof.Machine Sys2Proof.Safety

/-! ### Encoding -/

/-- Decoding the word of a well-formed operation, on its own channel, gives the operation back (R52 to R56, R66). -/
def Obligations.DecodeOfEncodeIsTheOperation : Prop :=
  ∀ (c : Config) (i : Instr), c.lenOk = true → i.wf c = true → decode c i.channel (encode i) = .ok i

/-- Every value of `cmd_len` selects `START` or `START_ODD` by its parity alone, with field `N` the half of it; every
value of `din_dibit` selects one `DIBxx`; a control input at 1 selects its operation and at 0 none; the operation has
the word for its encoding, so no two words of a channel select the same one (R53, R55, R56, R61). -/
def Obligations.EveryChannelWordSelectsOneOperation : Prop :=
  ∀ (c : Config), c.lenOk = true →
    (∀ w, w < 2 ^ c.lenW →
      ∃ i, decode c .cmd w = .ok i ∧ i = (if w % 2 = 0 then .start (w / 2) else .startOdd (w / 2)) ∧
        i.wf c = true ∧ i.channel = .cmd ∧ encode i = w) ∧
    (∀ w, w < 4 →
      ∃ i, decode c .din w = .ok i ∧ i ∈ [Instr.dib00, .dib01, .dib10, .dib11] ∧ i.channel = .din ∧ encode i = w) ∧
    (∀ ch i, (ch, i) ∈ [(Channel.errClr, Instr.errclr), (.rst, .reset)] →
      decode c ch 1 = .ok i ∧ decode c ch 0 = .error (.controlInactive ch))

/-- Words written out from the patterns of R66, for `LEN_W = 16`, decode to the operations they stand for. -/
def Obligations.OpcodeTableWordsDecode : Prop :=
  decode standardConfig .cmd 0b0000000000000100 = .ok (.start 2) ∧
  decode standardConfig .cmd 0b1111111111111110 = .ok (.start 0x7FFF) ∧
  decode standardConfig .cmd 0b0000000000000011 = .ok (.startOdd 1) ∧
  decode standardConfig .din 0b00 = .ok .dib00 ∧
  decode standardConfig .din 0b01 = .ok .dib01 ∧
  decode standardConfig .din 0b10 = .ok .dib10 ∧
  decode standardConfig .din 0b11 = .ok .dib11 ∧
  decode standardConfig .errClr 0b1 = .ok .errclr ∧
  decode standardConfig .rst 0b1 = .ok .reset

/-! ### The tables -/

/-- The contents of `DeltaROM`, and that the 3-bit adder with its carry discarded is the mathematical modulo of the signed
deltas, for every phase and address (R36, R37). -/
def Obligations.PhaseAdderIsTheMathematicalModulo : Prop :=
  [deltaRom 0b00, deltaRom 0b01, deltaRom 0b10, deltaRom 0b11] = [0b001, 0b011, 0b111, 0b101] ∧
  [delta 0, delta 1, delta 2, delta 3] = [1, 3, -1, -3] ∧
  ∀ (p : Phase) (a : Dibit),
    ((phaseAdd p (deltaRom a)).toNat : Int) = ((p.toNat : Int) + delta a.toNat) % 8

/-- The contents of the default table `IQ_CANON`, pattern by pattern (R39), and that it is admissible (R40). -/
def Obligations.DefaultIqTableIsAdmissible : Prop :=
  ((List.range 8).map fun k =>
      let z := iqRead standardConfig.iqTable (BitVec.ofNat 3 k)
      (z.i, z.q)) =
    [(0x3FF0000000000000#64, 0x0000000000000000#64), (0x3FE6A09E667F3BCD#64, 0x3FE6A09E667F3BCD#64),
     (0x0000000000000000#64, 0x3FF0000000000000#64), (0xBFE6A09E667F3BCD#64, 0x3FE6A09E667F3BCD#64),
     (0xBFF0000000000000#64, 0x0000000000000000#64), (0xBFE6A09E667F3BCD#64, 0xBFE6A09E667F3BCD#64),
     (0x0000000000000000#64, 0xBFF0000000000000#64), (0x3FE6A09E667F3BCD#64, 0xBFE6A09E667F3BCD#64)] ∧
  admissibleTable standardConfig.iqTable = true

/-- The tables and `LEN_W` are constants: no operation and no step changes the configuration (R35). -/
def Obligations.NothingWritesTheTables : Prop :=
  (∀ (i : Instr) (s t : State), exec i s = .next t → t.config = s.config) ∧
  ∀ (k : Nat) (s t : State), runSteps k s = .next t →
    t.config = s.config ∧ ∀ a, iqRead t.config.iqTable a = iqRead s.config.iqTable a

/-! ### One step -/

/-- The bridge from a step to an operation: when `fetch` names a word and it decodes to an operation, the step is `exec` of
that operation at that state. THE GROUPING IS THE MODEL'S CHOICE (notes/assumptions/8.md): an edge is the meaning of the one
word `fetch` names, a command or a dibit before an `err_clr` strobe, which then acts through the ports; no rule of the spec
says it. What the edge does is StepIsTheCompleteStepOfOneEdge. -/
def Obligations.StepRunsTheWordThatFires : Prop :=
  ∀ (s : State) (ch : Channel) (w : Nat) (i : Instr),
    fetch s = some (ch, w) → decode s.config ch w = .ok i → step s = exec i s

/-- An edge that takes no input word drains the holding register, lets `ERRP` fall and keeps every other register
(R82, R22); offers not taken wait. -/
def Obligations.EdgeWithNoWordOnlyDrains : Prop :=
  ∀ s : State, Live (cycle s) s → fetch s = none →
    step s = .next
      { s with
        regs := { s.regs with ov := s.regs.ov && !(cycle s).doutReady, errp := false }
        inputs := s.inputs.tail
        waitCmd := if (cycle s).cmdValid then some (cycle s).cmdLen else none
        waitDin := if (cycle s).dinValid then some (cycle s).dinDibit else none
        trace := s.trace ++
          [{ cmd := none, din := none,
             dout := if s.regs.ov && (cycle s).doutReady then some (heldSymbol s.config.iqTable s.regs)
                     else none }] }

/-- HEADLINE. The machine, which takes the word that fires, decodes it and runs that operation's own meaning, computes in
every cycle exactly the complete step of R88 and shows exactly its transfers. -/
def Obligations.StepIsTheCompleteStepOfOneEdge : Prop :=
  ∀ s : State, s.resetSeen = true → offersKept (cycle s) s = true →
    CmdFits s.config (cycle s) s.regs → s.regs.rem < 2 ^ (s.config.lenW - 1) →
    ∃ t, step s = .next t ∧ t.regs = (edgeStep s.config s.regs (cycle s)).1 ∧
      t.trace = s.trace ++ [(edgeStep s.config s.regs (cycle s)).2] ∧ t.config = s.config ∧
      t.inputs = s.inputs.tail ∧ t.resetSeen = true

/-- HEADLINE. Every operation, accepted or waiting, is the complete step of R88 in the cycle that offers it. -/
def Obligations.EveryOperationIsTheEdgeThatOffersIt : Prop :=
  ∀ (i : Instr) (s : State), s.resetSeen = true → offersKept (drive i (cycle s)) s = true →
    CmdFits s.config (drive i (cycle s)) s.regs → s.regs.rem < 2 ^ (s.config.lenW - 1) →
    ∃ t, exec i s = .next t ∧ t.regs = (edgeStep s.config s.regs (drive i (cycle s))).1 ∧
      t.trace = s.trace ++ [(edgeStep s.config s.regs (drive i (cycle s))).2] ∧ t.config = s.config

/-- A command is accepted only in `IDLE`, a dibit only in `RUN`, and no edge accepts both (R16, R47). -/
def Obligations.CommandsInIdleAndDibitsInRun : Prop :=
  ∀ (s t : State), step s = .next t →
    ∃ e, t.trace = s.trace ++ [e] ∧
      (e.cmd ≠ none → s.regs.st = .idle ∧ e.din = none) ∧ (e.din ≠ none → s.regs.st = .run ∧ e.cmd = none)

/-- A payload carried while its `valid` is 0, or while the block's `ready` is 0, is not read: two machines in one state
whose cycles differ in such payloads alone have the same registers and the same transfers after the edge (R62). -/
def Obligations.PayloadsOutsideATransferAreNotRead : Prop :=
  ∀ (s t t' : State) (p p' : Ports) (rest : List Ports),
    { p with cmdLen := p'.cmdLen, dinDibit := p'.dinDibit } = p' →
    (fireCmd p s.regs = true → p.cmdLen = p'.cmdLen) → (fireDin p s.regs = true → p.dinDibit = p'.dinDibit) →
    step { s with inputs := p :: rest } = .next t → step { s with inputs := p' :: rest } = .next t' →
    t.regs = t'.regs ∧ t.trace = t'.trace

/-! ### The operations -/

/-- `START`, accepted: the reference symbol at phase 0 is loaded, the frame's dibit count is written, the sequencer runs
unless the frame has no dibit, and nothing else of the block changes (R68); a symbol of an earlier frame leaves at the
same edge, and `ERRS` is cleared only if `err_clr = 1` at that edge. -/
def Obligations.StartOpensAFrame : Prop :=
  ∀ (s : State) (n : Nat), (Instr.start n).wf s.config = true → Live (drive (.start n) (cycle s)) s →
    s.regs.st = .idle → s.regs.ov = false ∨ (cycle s).doutReady = true →
    exec (.start n) s = .next
      { s with
        regs :=
          { st := if n = 0 then .idle else .run, phase := 0, rem := n, ov := true, oph := 0, oref := true,
            olast := decide (n = 0), errs := s.regs.errs && !(cycle s).errClr, errp := false }
        inputs := s.inputs.tail
        waitCmd := none
        waitDin := if (cycle s).dinValid then some (cycle s).dinDibit else none
        trace := s.trace ++
          [{ cmd := some (2 * n), din := none,
             dout := if s.regs.ov then some (heldSymbol s.config.iqTable s.regs) else none }] }

/-- `START_ODD`, accepted: InvalidInputLength is taken. `ERRS` and `ERRP` are 1 whatever `err_clr` is, no symbol is
formed, the held symbol leaves if downstream takes it, and no other register changes (R69, R91). -/
def Obligations.StartOddRaisesInvalidInputLength : Prop :=
  ∀ (s : State) (n : Nat), (Instr.startOdd n).wf s.config = true → Live (drive (.startOdd n) (cycle s)) s →
    s.regs.st = .idle → s.regs.ov = false ∨ (cycle s).doutReady = true →
    exec (.startOdd n) s = .next
      { s with
        regs := { s.regs with ov := false, errs := true, errp := true }
        inputs := s.inputs.tail
        waitCmd := none
        waitDin := if (cycle s).dinValid then some (cycle s).dinDibit else none
        trace := s.trace ++
          [{ cmd := some (2 * n + 1), din := none,
             dout := if s.regs.ov then some (heldSymbol s.config.iqTable s.regs) else none }] }

/-- `DIB00`, `DIB01`, `DIB10`, `DIB11`, accepted: the phase moves by +1, +3, −1 or −3 modulo 8, the symbol of the new
phase is loaded, the frame's count falls by one and the last dibit closes the frame; nothing else of the block changes
(R72 to R76). The premise `1 <= REM` is R26 and is kept by every step (`EveryStepKeepsTheRegisterInvariant`). -/
def Obligations.DibitStepsThePhase : Prop :=
  ∀ (s : State) (i : Instr) (d : Dibit) (δ : Int),
    (i, d, δ) ∈ [(Instr.dib00, 0b00#2, (1 : Int)), (.dib01, 0b01#2, 3), (.dib10, 0b10#2, -1), (.dib11, 0b11#2, -3)] →
    Live (drive i (cycle s)) s → s.regs.st = .run → s.regs.ov = false ∨ (cycle s).doutReady = true →
    1 ≤ s.regs.rem → s.regs.rem < 2 ^ (s.config.lenW - 1) →
    ∃ k : Phase, (k.toNat : Int) = ((s.regs.phase.toNat : Int) + δ) % 8 ∧
      exec i s = .next
        { s with
          regs :=
            { st := if s.regs.rem = 1 then .idle else .run, phase := k, rem := s.regs.rem - 1, ov := true, oph := k,
              oref := false, olast := decide (s.regs.rem = 1), errs := s.regs.errs && !(cycle s).errClr,
              errp := false }
          inputs := s.inputs.tail
          waitCmd := if (cycle s).cmdValid then some (cycle s).cmdLen else none
          waitDin := none
          trace := s.trace ++
            [{ cmd := none, din := some d,
               dout := if s.regs.ov then some (heldSymbol s.config.iqTable s.regs) else none }] }

/-- The complete phase transition table of R77, through the four operations themselves. -/
def Obligations.PhaseTransitionTable : Prop :=
  ∀ (i : Instr) (row : List Nat) (p : Phase),
    (i, row) ∈ [(Instr.dib00, [1, 2, 3, 4, 5, 6, 7, 0]), (.dib01, [3, 4, 5, 6, 7, 0, 1, 2]),
                (.dib10, [7, 0, 1, 2, 3, 4, 5, 6]), (.dib11, [5, 6, 7, 0, 1, 2, 3, 4])] →
    ∀ s : State, s.regs.phase = p → s.regs.st = .run → s.regs.ov = false ∨ (cycle s).doutReady = true →
      Live (drive i (cycle s)) s →
      ∃ t, exec i s = .next t ∧ row[p.toNat]? = some t.regs.phase.toNat

/-- `ERRCLR` at an edge with no input transfer: `ERRS` is 0, `ERRP` falls, the holding register drains, and no other
register changes (R84). -/
def Obligations.ErrClrClearsTheStickyFlag : Prop :=
  ∀ s : State, Live (cycle s) s → fireCmd (cycle s) s.regs = false → fireDin (cycle s) s.regs = false →
    exec .errclr s = .next
      { s with
        regs := { s.regs with ov := s.regs.ov && !(cycle s).doutReady, errs := false, errp := false }
        inputs := s.inputs.tail
        waitCmd := if (cycle s).cmdValid then some (cycle s).cmdLen else none
        waitDin := if (cycle s).dinValid then some (cycle s).dinDibit else none
        trace := s.trace ++
          [{ cmd := none, din := none,
             dout := if s.regs.ov && (cycle s).doutReady then some (heldSymbol s.config.iqTable s.regs)
                     else none }] }

/-- `ERRCLR` "writes nothing but `ERRS`" (R84 d), and an odd command at the same edge wins (R84 b, R95 (2)): beside the
same cycle without it, the registers differ in `ERRS` alone, which is 1 exactly when an odd command fires at the edge. -/
def Obligations.ErrClrWritesNothingButErrs : Prop :=
  ∀ (s : State) (p : Ports) (rest : List Ports), s.inputs = p :: rest → Live p s →
    CmdFits s.config p s.regs →
    ∃ t u, exec .errclr s = .next t ∧ step { s with inputs := { p with errClr := false } :: rest } = .next u ∧
      t.regs = { u.regs with errs := fireCmd p s.regs && decide (p.cmdLen % 2 = 1) } ∧ t.trace = u.trace

/-- `RESET`, in any state: every register takes its reset value, no transfer happens on any channel, and the build is kept
(R102, R103). -/
def Obligations.ResetClearsEveryRegister : Prop :=
  ∀ s : State,
    exec .reset s = .next
      { config := s.config
        regs :=
          { st := .idle, phase := 0, rem := 0, ov := false, oph := 0, oref := false, olast := false, errs := false,
            errp := false }
        resetSeen := true
        inputs := s.inputs.tail
        waitCmd := none
        waitDin := none
        trace := s.trace ++ [{ cmd := none, din := none, dout := none }] }

/-- `rst = 1` has the highest priority: at its edge every operation, and the step, is the reset and nothing else, whatever
the other ports carry (R95 (1), R103). -/
def Obligations.RstOverridesEveryOperation : Prop :=
  ∀ (s : State), (cycle s).rst = true →
    cmdReady (cycle s) s.regs = false ∧ dinReady (cycle s) s.regs = false ∧ doutValid (cycle s) s.regs = false ∧
    step s = exec .reset s ∧ ∀ i : Instr, exec i s = exec .reset s

/-- After a reset edge the block is in `IDLE` with an empty holding register; in the first cycle after it, whatever ports the
host drives there with `rst = 0`, it is ready for a command and for no dibit; a second reset edge changes no register (R104,
R33). -/
def Obligations.ReadyForACommandAfterReset : Prop :=
  ∀ (s t : State), exec .reset s = .next t →
    quiescent t.regs = true ∧
    (∀ p : Ports, p.rst = false → cmdReady p t.regs = true ∧ dinReady p t.regs = false) ∧
    ∃ u, exec .reset t = .next u ∧ u.regs = t.regs

/-- A command offered while a frame is open, or while the holding register is full and stays so, is not accepted: it waits,
and at an edge with no dibit transfer only the drain and the flags move (R67). -/
def Obligations.CommandWaitsUntilReady : Prop :=
  ∀ (s : State) (i : Instr), i.channel = .cmd → Live (drive i (cycle s)) s →
    s.regs.st = .run ∨ (s.regs.ov = true ∧ (cycle s).doutReady = false) →
    fireDin (cycle s) s.regs = false →
    ∃ t, exec i s = .next t ∧
      t.regs = { s.regs with
        ov := s.regs.ov && !(cycle s).doutReady, errs := s.regs.errs && !(cycle s).errClr, errp := false } ∧
      t.waitCmd = some (encode i) ∧ acceptedCmds (newEdges s t) = [] ∧ acceptedDins (newEdges s t) = []

/-- A dibit offered while no frame is open, or while the holding register is full and stays so, is not accepted: it waits,
and at an edge with no command transfer only the drain and the flags move (R71). -/
def Obligations.DibitWaitsUntilReady : Prop :=
  ∀ (s : State) (i : Instr), i.channel = .din → Live (drive i (cycle s)) s →
    s.regs.st = .idle ∨ (s.regs.ov = true ∧ (cycle s).doutReady = false) →
    fireCmd (cycle s) s.regs = false →
    ∃ t, exec i s = .next t ∧
      t.regs = { s.regs with
        ov := s.regs.ov && !(cycle s).doutReady, errs := s.regs.errs && !(cycle s).errClr, errp := false } ∧
      t.waitDin = some (BitVec.ofNat 2 (encode i)) ∧ acceptedCmds (newEdges s t) = [] ∧
      acceptedDins (newEdges s t) = []

/-- Before the first reset edge every operation but `RESET` is the model's fault, and `RESET` completes (R31, R105, I4;
notes/assumptions/2.md). The fault is the model's, as those entries ask; the block itself goes on with values nothing says. -/
def Obligations.OnlyResetRunsBeforeTheFirstReset : Prop :=
  ∀ (s : State) (i : Instr), s.resetSeen = false → (cycle s).rst = false →
    (i ≠ .reset → exec i s = .fault .readBeforeFirstReset) ∧
    ∃ t, exec .reset s = .next t ∧ t.resetSeen = true

/-- A host that withdraws or changes an offer before its transfer is outside the spec, and the model refuses the edge
(R110, I6; notes/assumptions/3.md). -/
def Obligations.BrokenOfferIsRefused : Prop :=
  ∀ (s : State) (i : Instr), s.resetSeen = true → (cycle s).rst = false → i ≠ .reset →
    offersKept (drive i (cycle s)) s = false → exec i s = .refused .offerWithdrawn

/-! ### Flags and outputs -/

/-- `ERRP` is 1 after an edge exactly when the edge accepts an odd-length command, so the pulse lasts one cycle; `ERRS` is
set by such an edge even against `err_clr`, cleared by `err_clr` otherwise, and else kept (R22, R84, R89, R95 (2)). -/
def Obligations.ErrorFlagsFollowOddCommands : Prop :=
  ∀ (s t : State), step s = .next t → (cycle s).rst = false →
    let odd := (acceptedCmds (newEdges s t)).any fun w => decide (w % 2 = 1)
    t.regs.errp = odd ∧ t.regs.errs = (odd || (s.regs.errs && !(cycle s).errClr))

/-- The output ports of a cycle: `cmd_ready` (R67), `din_ready` (R71), `dout_valid` (R81), `busy` (R85), `err_len` and
`err_len_pulse` (R86) are the rules' expressions, and while `dout_valid = 1` the `dout` payload is
`(OPH, MemRead(IQROM, OPH), OREF, OLAST)` (R81, R58); `busy = 0` exactly when the block is quiescent (R115). That there are
no outputs to read exactly before the first reset edge is the model's form of R105 (notes/assumptions/2.md). -/
def Obligations.StatusOutputs : Prop :=
  (∀ (s : State) (o : OutPorts), outputs s = some o →
    (o.cmdReady = true ↔
      (cycle s).rst = false ∧ s.regs.st = .idle ∧ (s.regs.ov = false ∨ (cycle s).doutReady = true)) ∧
    (o.dinReady = true ↔
      (cycle s).rst = false ∧ s.regs.st = .run ∧ (s.regs.ov = false ∨ (cycle s).doutReady = true)) ∧
    (o.doutValid = true ↔ (cycle s).rst = false ∧ s.regs.ov = true) ∧
    (o.doutValid = true →
      o.dout =
        { phase := s.regs.oph, i := (iqRead s.config.iqTable s.regs.oph).i,
          q := (iqRead s.config.iqTable s.regs.oph).q, ref := s.regs.oref, last := s.regs.olast }) ∧
    (o.busy = true ↔ s.regs.st = .run ∨ s.regs.ov = true) ∧ o.errLen = s.regs.errs ∧
    o.errLenPulse = s.regs.errp ∧ (o.busy = false ↔ quiescent s.regs = true)) ∧
  ∀ s : State, outputs s = none ↔ s.resetSeen = false

/-- No output depends on `cmd_valid`, `cmd_len`, `din_valid`, `din_dibit` or `err_clr` (R111). For the `dout` payload while
`dout_valid = 0` this rests on the model's choice to drive it from the registers then too (notes/assumptions/11.md); I5 lets
no claim read its value there, and this one says only what it does not depend on. -/
def Obligations.OutputsIgnoreTheOffers : Prop :=
  ∀ (t : IqTable) (r : Regs) (p p' : Ports), p.rst = p'.rst → p.doutReady = p'.doutReady →
    outPorts t p r = outPorts t p' r

/-- Once a symbol is offered, its payload and `dout_valid` stay unchanged in every following cycle until it is transferred,
whatever the host does on the other channels, with no reset (R83). -/
def Obligations.OfferedSymbolStaysUntilTransferred : Prop :=
  ∀ (k : Nat) (s t : State), s.regs.ov = true →
    NextCycles k (fun p => !p.rst && !p.doutReady) s → runSteps k s = .next t →
    t.regs.ov = true ∧ heldSymbol t.config.iqTable t.regs = heldSymbol s.config.iqTable s.regs ∧
    delivered (newEdges s t) = []

/-! ### Invariants and whole runs -/

/-- HEADLINE. Every step and every operation keeps the register invariant: `IDLE` has no dibit due and `RUN` at least one,
`REM` fits its width, `OPH = PHASE`, and a held reference symbol is at phase 0 (R19, R26, R28). -/
def Obligations.EveryStepKeepsTheRegisterInvariant : Prop :=
  (∀ (s t : State), RegsInv s.config s.regs → step s = .next t → RegsInv t.config t.regs) ∧
  ∀ (i : Instr) (s t : State), RegsInv s.config s.regs → exec i s = .next t → RegsInv t.config t.regs

/-- The register invariant holds after reset, and after a reset edge from any state of any build (R26, R28, R32). -/
def Obligations.RegisterInvariantHoldsAfterReset : Prop :=
  RegsInv State.reset.config State.reset.regs ∧
  ∀ (s t : State), exec .reset s = .next t → RegsInv t.config t.regs

/-- HEADLINE. No symbol is dropped, duplicated or reordered: over any run without reset, the symbol held at its start and the
symbols its transfers form, in order, are exactly the symbols delivered and the symbol held at its end (R46). -/
def Obligations.SymbolsAreNeitherLostNorReordered : Prop :=
  ∀ (k : Nat) (s t : State), RegsInv s.config s.regs → NextCycles k (fun p => !p.rst) s →
    runSteps k s = .next t →
    held s.config.iqTable s.regs ++
        formedSymbols s.config.iqTable (s.regs.phase.toNat : Int) s.regs.rem (newEdges s t) =
      delivered (newEdges s t) ++ held t.config.iqTable t.regs

/-- HEADLINE. Frame equivalence with the source's `ENC`, for an even bit count: once the command of a frame has fired and its
dibits have been accepted and its symbols taken, with no reset and before the next command, the delivered symbols are
`ENC(bits)`, the first marked as reference and only the last as last (R87, R3). -/
def Obligations.EvenFrameDeliversTheReferenceEncoding : Prop :=
  ∀ (s s₁ t : State) (bits : List Bool) (k : Nat),
    bits.length % 2 = 0 → step s = .next s₁ → acceptedCmds (newEdges s s₁) = [bits.length] →
    NextCycles k (fun p => !p.rst) s₁ → runSteps k s₁ = .next t →
    acceptedCmds (newEdges s₁ t) = [] → acceptedDins (newEdges s₁ t) = dibitsOf bits → t.regs.ov = false →
    let out := delivered (newEdges s₁ t)
    enc s.config.iqTable bits = .ok (out.map fun y => { i := y.i, q := y.q }) ∧
    encIndices bits = .ok (out.map fun y => y.phase.toNat) ∧
    out.map (fun y => y.ref) = true :: List.replicate (bits.length / 2) false ∧
    out.map (fun y => y.last) = List.replicate (bits.length / 2) false ++ [true]

/-- Frame equivalence for an odd bit count: `ENC` fails, the command's edge raises the error, no symbol is formed, no dibit is
accepted at that edge, and the block is still in `IDLE`, so it accepts none until a later command (R87, R92, R3). -/
def Obligations.OddFrameDeliversNothing : Prop :=
  ∀ (s s₁ : State) (bits : List Bool),
    bits.length % 2 = 1 → step s = .next s₁ → acceptedCmds (newEdges s s₁) = [bits.length] →
    enc s.config.iqTable bits = .error .invalidInputLength ∧
    s₁.regs.errs = true ∧ s₁.regs.errp = true ∧ s₁.regs.st = .idle ∧ acceptedDins (newEdges s s₁) = [] ∧
    delivered (newEdges s s₁) ++ held s₁.config.iqTable s₁.regs = held s.config.iqTable s.regs

/-- The length law inside a frame: after an even command of `L` bits and `j` dibits, with no reset and no later command, the
frame has made `j + 1` symbols available, the first alone marked as reference, and the last mark is on the symbol of the
`L/2`-th dibit and on no other (R70). -/
def Obligations.FrameLengthLaw : Prop :=
  ∀ (s s₁ t : State) (w k : Nat), w % 2 = 0 → step s = .next s₁ → acceptedCmds (newEdges s s₁) = [w] →
    NextCycles k (fun p => !p.rst) s₁ → runSteps k s₁ = .next t → acceptedCmds (newEdges s₁ t) = [] →
    let out := delivered (newEdges s₁ t) ++ held t.config.iqTable t.regs
    let j := (acceptedDins (newEdges s₁ t)).length
    j ≤ w / 2 ∧ out.length = j + 1 ∧ out.map (fun y => y.ref) = true :: List.replicate j false ∧
    out.map (fun y => y.last) = (List.range (j + 1)).map fun m => decide (m = w / 2)

/-- The prefix-sum law: within a frame the `j`-th data symbol's phase is the sum of the first `j` deltas modulo 8, the
reference symbol's is 0, and every phase has the parity of its position (R79). -/
def Obligations.PhasesArePrefixSums : Prop :=
  ∀ (s s₁ t : State) (w k : Nat), w % 2 = 0 → step s = .next s₁ → acceptedCmds (newEdges s s₁) = [w] →
    NextCycles k (fun p => !p.rst) s₁ → runSteps k s₁ = .next t → acceptedCmds (newEdges s₁ t) = [] →
    ∀ (j : Nat) (y : OutSymbol),
      (delivered (newEdges s₁ t) ++ held t.config.iqTable t.regs)[j]? = some y →
      (y.phase.toNat : Int) = (((acceptedDins (newEdges s₁ t)).take j).map fun d => delta d.toNat).sum % 8 ∧
      y.phase.toNat % 2 = j % 2

/-- No value of an earlier frame reaches a symbol of a later one, and equal inputs give equal transfers: two machines of one
build, in states that may differ in every register, that accept the same even command at an edge and are then driven
alike, show the same transfers for as long as both run (R29). -/
def Obligations.FramesDoNotSeeEarlierFrames : Prop :=
  ∀ (s s' t t' : State) (w k : Nat), s.config = s'.config → cycle s = cycle s' →
    s.inputs.tail = s'.inputs.tail → w % 2 = 0 → step s = .next t → step s' = .next t' →
    acceptedCmds (newEdges s t) = [w] → acceptedCmds (newEdges s' t') = [w] →
    ∀ u, runSteps k t = .next u →
      ∃ u', runSteps k t' = .next u' ∧ newEdges t u = newEdges t' u' ∧
        u.regs.st = u'.regs.st ∧ u.regs.phase = u'.regs.phase ∧ u.regs.rem = u'.regs.rem ∧
        held u.config.iqTable u.regs = held u'.config.iqTable u'.regs

/-- Throughput: when the host offers everything as early as it can and always takes a symbol, a command of `N` dibits accepted
at edge `e` is followed by its dibits at edges `e + 1` to `e + N`, by the next command at `e + N + 1`, and by a symbol
transfer at each of `e + 1` to `e + N + 1`; an odd command occupies one edge (R114). -/
def Obligations.OneSymbolLeavesPerEdge : Prop :=
  ∀ (s : State) (ds : List Dibit) (w next : Nat) (after : Dibit) (rest : List Ports),
    s.inputs = eagerCycles w ds next after ++ rest → s.resetSeen = true → s.waitCmd = none → s.waitDin = none →
    s.regs.st = .idle → w < 2 ^ s.config.lenW → next < 2 ^ s.config.lenW →
    (w = 2 * ds.length ∨ (w % 2 = 1 ∧ ds = [])) →
    ∃ t, runSteps (ds.length + 2) s = .next t ∧
      (newEdges s t).map (·.cmd) = some w :: List.replicate ds.length none ++ [some next] ∧
      (newEdges s t).map (·.din) = none :: ds.map some ++ [none] ∧
      (newEdges s t).map (·.dout.isSome) =
        s.regs.ov :: List.replicate ds.length true ++ [decide (w % 2 = 0)]

/-- Progress: a command offered without reset while no frame is open is accepted no later than the first cycle in which
downstream takes a symbol; likewise a dibit while a frame is open; likewise a held symbol is transferred (R117). -/
def Obligations.OffersAreTakenOnceDownstreamIsReady : Prop :=
  ∀ (k : Nat) (s t : State), runSteps k s = .next t →
    (∃ p ∈ s.inputs.take k, p.doutReady = true) →
    (∀ w, s.regs.st = .idle → NextCycles k (fun p => !p.rst && p.cmdValid && decide (p.cmdLen = w)) s →
      (acceptedCmds (newEdges s t)).head? = some w) ∧
    (∀ d, s.regs.st = .run → NextCycles k (fun p => !p.rst && p.dinValid && decide (p.dinDibit = d)) s →
      (acceptedDins (newEdges s t)).head? = some d) ∧
    (s.regs.ov = true → NextCycles k (fun p => !p.rst) s →
      (delivered (newEdges s t)).head? = some (heldSymbol s.config.iqTable s.regs))

/-! ### The script host -/

/-- `ENCODE` spells one `START` of the bit count and, for an even count, one `DIB` per pair of bits; for an odd count none
(R65). -/
def Obligations.EncodeSpellsItsFrame : Prop :=
  ∀ bits : List Bool,
    (scriptHost (encodeOps bits)).starts = [bits.length] ∧
    (scriptHost (encodeOps bits)).dibs = (if bits.length % 2 = 0 then dibitsOf bits else []) ∧
    (dibitsOf bits).length = bits.length / 2

/-- The script host keeps its duties on the channels: from a state in which it still holds its offers, its next edge is never
refused or a fault, and it still holds them after (R64, R110). The reading of R64 and the refusal are the model's
(notes/assumptions/3.md, 12.md). -/
def Obligations.ScriptHostIsNeverRefused : Prop :=
  ∀ (h : ScriptHost) (e : Nat) (s : State), s.resetSeen = true → ScriptAgrees h s →
    ∃ h' t, scriptEdge h e s = .next (h', t) ∧ t.resetSeen = true ∧ ScriptAgrees h' t

/-- HEADLINE. The block, reset from power-on with whatever its registers held and then driven by the script `ENCODE bits`,
computes the source's `encode(bits)`: it ends quiescent after `N + 3` edges with exactly `ENC(bits)` delivered and no error
for an even count, and with nothing delivered and the error flag set for an odd one (R3, R65, R87, R105). When the script
host makes its first offer is the model's reading of R64 (notes/assumptions/12.md). -/
def Obligations.EncodeScriptComputesTheReferenceEncoding : Prop :=
  ∀ (c : Config) (r : Regs) (bits : List Bool), bits.length < 2 ^ c.lenW →
    ∃ h t, scriptRun (scriptHost (.resetAt 0 :: encodeOps bits)) 0 (powerOn c r) (bits.length / 2 + 3) =
        .next (h, t) ∧
      quiescent t.regs = true ∧ h.starts = [] ∧ h.dibs = [] ∧
      if bits.length % 2 = 0 then
        enc c.iqTable bits = .ok ((delivered t.trace).map fun y => { i := y.i, q := y.q }) ∧ t.regs.errs = false
      else
        enc c.iqTable bits = .error .invalidInputLength ∧ delivered t.trace = [] ∧ t.regs.errs = true

/-! ### The end of a run -/

/-- A run is over exactly when the block is quiescent and the host has nothing left to offer on `cmd` or `din`, and its result
is then the sequence of `dout` transfers, the final `err_len` and the final registers; while the block stays in `RUN`, or
keeps `OV = 1`, there is none (R115). What the host has left to offer is read off the model's record of it
(notes/assumptions/14.md). -/
def Obligations.RunHasAResultExactlyAtItsEnd : Prop :=
  ∀ (s : State) (y : RunResult),
    runResult s = some y ↔
      s.resetSeen = true ∧ s.regs.st = .idle ∧ s.regs.ov = false ∧ s.waitCmd = none ∧ s.waitDin = none ∧
      (∀ p ∈ s.inputs, p.cmdValid = false ∧ p.dinValid = false) ∧
      y.symbols = delivered s.trace ∧ y.errLen = s.regs.errs ∧ y.regs = s.regs

/-- A run that is over stays over: every later edge completes and transfers nothing on any channel, so the sequence of `dout`
transfers is final; and over cycles with no reset no register changes but the error flags, of which `ERRS` changes only by
`err_clr` (R115, R82, R84). When a run is over is the model's reading of R115 (notes/assumptions/14.md), and that nothing is
offered past the schedule's end is the model's host (notes/assumptions/5.md). -/
def Obligations.EndedRunTransfersNothingMore : Prop :=
  ∀ (k : Nat) (s : State), runEnded s = true →
    ∃ t, runSteps k s = .next t ∧ runEnded t = true ∧
      newEdges s t = List.replicate k { cmd := none, din := none, dout := none } ∧
      ((∀ p ∈ s.inputs.take k, p.rst = false) →
        { t.regs with errs := s.regs.errs, errp := s.regs.errp } = s.regs ∧
        ((∀ p ∈ s.inputs.take k, p.errClr = false) → t.regs.errs = s.regs.errs))

/-- Running to the end stops at the first state in which the run is over, and nowhere before it but at the bound on edges
(R115). A law of the loop. When a run is over is the model's reading of R115 (notes/assumptions/14.md), and the edges past the
end of the schedule are those of the model's host (notes/assumptions/5.md), since no premise lists the cycles. -/
def Obligations.RunToEndStopsAtTheFirstEnd : Prop :=
  ∀ (n : Nat) (s t : State), runToEnd n s = .next t →
    ∃ j, j ≤ n ∧ runSteps j s = .next t ∧ (runEnded t = true ∨ j = n) ∧
      ∀ i u, i < j → runSteps i s = .next u → runEnded u = false

/-- HEADLINE. The run of the script `ENCODE bits`, reset from power-on with whatever the registers held, ends, however large the
bound on its edges is, and its result is `ENC(bits)` with `err_len = 0` for an even count, and no symbol with `err_len = 1`
for an odd one (R115, R3, R65, R87). The script host's reading is the model's (notes/assumptions/12.md, 14.md). -/
def Obligations.EncodeScriptEndsWithTheReferenceEncoding : Prop :=
  ∀ (c : Config) (r : Regs) (bits : List Bool) (n : Nat), bits.length < 2 ^ c.lenW → bits.length / 2 + 3 ≤ n →
    ∃ h t y, scriptToEnd (scriptHost (.resetAt 0 :: encodeOps bits)) 0 (powerOn c r) n = .next (h, t) ∧
      scriptResult h t = some y ∧
      if bits.length % 2 = 0 then
        enc c.iqTable bits = .ok (y.symbols.map fun z => { i := z.i, q := z.q }) ∧ y.errLen = false
      else
        enc c.iqTable bits = .error .invalidInputLength ∧ y.symbols = [] ∧ y.errLen = true
end

