-- ==== Sys2Proof/Laws/State.lean ====
section
/-! SUPPORT. One lemma per field per update of a record, true by unfolding, so that no later proof unfolds one. -/

namespace Sys2Proof.Machine

/-! ### The holding register and the flags -/

@[simp] theorem loadSymbol_st (k : Phase) (ref last : Bool) (r : Regs) :
    (loadSymbol k ref last r).st = r.st := rfl

@[simp] theorem loadSymbol_phase (k : Phase) (ref last : Bool) (r : Regs) :
    (loadSymbol k ref last r).phase = r.phase := rfl

@[simp] theorem loadSymbol_rem (k : Phase) (ref last : Bool) (r : Regs) :
    (loadSymbol k ref last r).rem = r.rem := rfl

@[simp] theorem loadSymbol_ov (k : Phase) (ref last : Bool) (r : Regs) :
    (loadSymbol k ref last r).ov = true := rfl

@[simp] theorem loadSymbol_oph (k : Phase) (ref last : Bool) (r : Regs) :
    (loadSymbol k ref last r).oph = k := rfl

@[simp] theorem loadSymbol_oref (k : Phase) (ref last : Bool) (r : Regs) :
    (loadSymbol k ref last r).oref = ref := rfl

@[simp] theorem loadSymbol_olast (k : Phase) (ref last : Bool) (r : Regs) :
    (loadSymbol k ref last r).olast = last := rfl

@[simp] theorem loadSymbol_errs (k : Phase) (ref last : Bool) (r : Regs) :
    (loadSymbol k ref last r).errs = r.errs := rfl

@[simp] theorem loadSymbol_errp (k : Phase) (ref last : Bool) (r : Regs) :
    (loadSymbol k ref last r).errp = r.errp := rfl

@[simp] theorem drain_st (p : Ports) (r : Regs) :
    (drain p r).st = r.st := rfl

@[simp] theorem drain_phase (p : Ports) (r : Regs) :
    (drain p r).phase = r.phase := rfl

@[simp] theorem drain_rem (p : Ports) (r : Regs) :
    (drain p r).rem = r.rem := rfl

@[simp] theorem drain_ov (p : Ports) (r : Regs) :
    (drain p r).ov = (r.ov && !fireDout p r) := rfl

@[simp] theorem drain_oph (p : Ports) (r : Regs) :
    (drain p r).oph = r.oph := rfl

@[simp] theorem drain_oref (p : Ports) (r : Regs) :
    (drain p r).oref = r.oref := rfl

@[simp] theorem drain_olast (p : Ports) (r : Regs) :
    (drain p r).olast = r.olast := rfl

@[simp] theorem drain_errs (p : Ports) (r : Regs) :
    (drain p r).errs = r.errs := rfl

@[simp] theorem drain_errp (p : Ports) (r : Regs) :
    (drain p r).errp = r.errp := rfl

@[simp] theorem settleFlags_st (p : Ports) (r : Regs) :
    (settleFlags p r).st = r.st := rfl

@[simp] theorem settleFlags_phase (p : Ports) (r : Regs) :
    (settleFlags p r).phase = r.phase := rfl

@[simp] theorem settleFlags_rem (p : Ports) (r : Regs) :
    (settleFlags p r).rem = r.rem := rfl

@[simp] theorem settleFlags_ov (p : Ports) (r : Regs) :
    (settleFlags p r).ov = r.ov := rfl

@[simp] theorem settleFlags_oph (p : Ports) (r : Regs) :
    (settleFlags p r).oph = r.oph := rfl

@[simp] theorem settleFlags_oref (p : Ports) (r : Regs) :
    (settleFlags p r).oref = r.oref := rfl

@[simp] theorem settleFlags_olast (p : Ports) (r : Regs) :
    (settleFlags p r).olast = r.olast := rfl

@[simp] theorem settleFlags_errs (p : Ports) (r : Regs) :
    (settleFlags p r).errs = (r.errs && !p.errClr) := rfl

@[simp] theorem settleFlags_errp (p : Ports) (r : Regs) :
    (settleFlags p r).errp = false := rfl

@[simp] theorem raiseFlags_st (r : Regs) :
    (raiseFlags r).st = r.st := rfl

@[simp] theorem raiseFlags_phase (r : Regs) :
    (raiseFlags r).phase = r.phase := rfl

@[simp] theorem raiseFlags_rem (r : Regs) :
    (raiseFlags r).rem = r.rem := rfl

@[simp] theorem raiseFlags_ov (r : Regs) :
    (raiseFlags r).ov = r.ov := rfl

@[simp] theorem raiseFlags_oph (r : Regs) :
    (raiseFlags r).oph = r.oph := rfl

@[simp] theorem raiseFlags_oref (r : Regs) :
    (raiseFlags r).oref = r.oref := rfl

@[simp] theorem raiseFlags_olast (r : Regs) :
    (raiseFlags r).olast = r.olast := rfl

@[simp] theorem raiseFlags_errs (r : Regs) :
    (raiseFlags r).errs = true := rfl

@[simp] theorem raiseFlags_errp (r : Regs) :
    (raiseFlags r).errp = true := rfl

/-! ### The register transfers of the operations -/

@[simp] theorem raiseInvalidInputLength_st (p : Ports) (r : Regs) :
    (raiseInvalidInputLength p r).st = r.st := rfl

@[simp] theorem raiseInvalidInputLength_phase (p : Ports) (r : Regs) :
    (raiseInvalidInputLength p r).phase = r.phase := rfl

@[simp] theorem raiseInvalidInputLength_rem (p : Ports) (r : Regs) :
    (raiseInvalidInputLength p r).rem = r.rem := rfl

@[simp] theorem raiseInvalidInputLength_ov (p : Ports) (r : Regs) :
    (raiseInvalidInputLength p r).ov = (r.ov && !fireDout p r) := rfl

@[simp] theorem raiseInvalidInputLength_oph (p : Ports) (r : Regs) :
    (raiseInvalidInputLength p r).oph = r.oph := rfl

@[simp] theorem raiseInvalidInputLength_oref (p : Ports) (r : Regs) :
    (raiseInvalidInputLength p r).oref = r.oref := rfl

@[simp] theorem raiseInvalidInputLength_olast (p : Ports) (r : Regs) :
    (raiseInvalidInputLength p r).olast = r.olast := rfl

@[simp] theorem raiseInvalidInputLength_errs (p : Ports) (r : Regs) :
    (raiseInvalidInputLength p r).errs = true := rfl

@[simp] theorem raiseInvalidInputLength_errp (p : Ports) (r : Regs) :
    (raiseInvalidInputLength p r).errp = true := rfl

@[simp] theorem acceptStart_st (p : Ports) (n : Nat) (r : Regs) :
    (acceptStart p n r).st = (if n = 0 then .idle else .run) := rfl

@[simp] theorem acceptStart_phase (p : Ports) (n : Nat) (r : Regs) :
    (acceptStart p n r).phase = 0 := rfl

@[simp] theorem acceptStart_rem (p : Ports) (n : Nat) (r : Regs) :
    (acceptStart p n r).rem = n := rfl

@[simp] theorem acceptStart_ov (p : Ports) (n : Nat) (r : Regs) :
    (acceptStart p n r).ov = true := rfl

@[simp] theorem acceptStart_oph (p : Ports) (n : Nat) (r : Regs) :
    (acceptStart p n r).oph = 0 := rfl

@[simp] theorem acceptStart_oref (p : Ports) (n : Nat) (r : Regs) :
    (acceptStart p n r).oref = true := rfl

@[simp] theorem acceptStart_olast (p : Ports) (n : Nat) (r : Regs) :
    (acceptStart p n r).olast = decide (n = 0) := rfl

@[simp] theorem acceptStart_errs (p : Ports) (n : Nat) (r : Regs) :
    (acceptStart p n r).errs = (r.errs && !p.errClr) := rfl

@[simp] theorem acceptStart_errp (p : Ports) (n : Nat) (r : Regs) :
    (acceptStart p n r).errp = false := rfl

@[simp] theorem dibStep_st (c : Config) (p : Ports) (d : Dibit) (r : Regs) :
    (dibStep c p d r).st = (if r.rem = 1 then .idle else .run) := rfl

@[simp] theorem dibStep_phase (c : Config) (p : Ports) (d : Dibit) (r : Regs) :
    (dibStep c p d r).phase = phaseAdd r.phase (deltaRom d) := rfl

@[simp] theorem dibStep_rem (c : Config) (p : Ports) (d : Dibit) (r : Regs) :
    (dibStep c p d r).rem = decRem c r.rem := rfl

@[simp] theorem dibStep_ov (c : Config) (p : Ports) (d : Dibit) (r : Regs) :
    (dibStep c p d r).ov = true := rfl

@[simp] theorem dibStep_oph (c : Config) (p : Ports) (d : Dibit) (r : Regs) :
    (dibStep c p d r).oph = phaseAdd r.phase (deltaRom d) := rfl

@[simp] theorem dibStep_oref (c : Config) (p : Ports) (d : Dibit) (r : Regs) :
    (dibStep c p d r).oref = false := rfl

@[simp] theorem dibStep_olast (c : Config) (p : Ports) (d : Dibit) (r : Regs) :
    (dibStep c p d r).olast = decide (r.rem = 1) := rfl

@[simp] theorem dibStep_errs (c : Config) (p : Ports) (d : Dibit) (r : Regs) :
    (dibStep c p d r).errs = (r.errs && !p.errClr) := rfl

@[simp] theorem dibStep_errp (c : Config) (p : Ports) (d : Dibit) (r : Regs) :
    (dibStep c p d r).errp = false := rfl

@[simp] theorem quiet_st (p : Ports) (r : Regs) :
    (quiet p r).st = r.st := rfl

@[simp] theorem quiet_phase (p : Ports) (r : Regs) :
    (quiet p r).phase = r.phase := rfl

@[simp] theorem quiet_rem (p : Ports) (r : Regs) :
    (quiet p r).rem = r.rem := rfl

@[simp] theorem quiet_ov (p : Ports) (r : Regs) :
    (quiet p r).ov = (r.ov && !fireDout p r) := rfl

@[simp] theorem quiet_oph (p : Ports) (r : Regs) :
    (quiet p r).oph = r.oph := rfl

@[simp] theorem quiet_oref (p : Ports) (r : Regs) :
    (quiet p r).oref = r.oref := rfl

@[simp] theorem quiet_olast (p : Ports) (r : Regs) :
    (quiet p r).olast = r.olast := rfl

@[simp] theorem quiet_errs (p : Ports) (r : Regs) :
    (quiet p r).errs = (r.errs && !p.errClr) := rfl

@[simp] theorem quiet_errp (p : Ports) (r : Regs) :
    (quiet p r).errp = false := rfl

/-! ### The ports an operation drives -/

@[simp] theorem offerCmd_rst (w : Nat) (p : Ports) :
    (offerCmd w p).rst = p.rst := rfl

@[simp] theorem offerCmd_cmdValid (w : Nat) (p : Ports) :
    (offerCmd w p).cmdValid = true := rfl

@[simp] theorem offerCmd_cmdLen (w : Nat) (p : Ports) :
    (offerCmd w p).cmdLen = w := rfl

@[simp] theorem offerCmd_dinValid (w : Nat) (p : Ports) :
    (offerCmd w p).dinValid = p.dinValid := rfl

@[simp] theorem offerCmd_dinDibit (w : Nat) (p : Ports) :
    (offerCmd w p).dinDibit = p.dinDibit := rfl

@[simp] theorem offerCmd_doutReady (w : Nat) (p : Ports) :
    (offerCmd w p).doutReady = p.doutReady := rfl

@[simp] theorem offerCmd_errClr (w : Nat) (p : Ports) :
    (offerCmd w p).errClr = p.errClr := rfl

@[simp] theorem offerDin_rst (d : Dibit) (p : Ports) :
    (offerDin d p).rst = p.rst := rfl

@[simp] theorem offerDin_cmdValid (d : Dibit) (p : Ports) :
    (offerDin d p).cmdValid = p.cmdValid := rfl

@[simp] theorem offerDin_cmdLen (d : Dibit) (p : Ports) :
    (offerDin d p).cmdLen = p.cmdLen := rfl

@[simp] theorem offerDin_dinValid (d : Dibit) (p : Ports) :
    (offerDin d p).dinValid = true := rfl

@[simp] theorem offerDin_dinDibit (d : Dibit) (p : Ports) :
    (offerDin d p).dinDibit = d := rfl

@[simp] theorem offerDin_doutReady (d : Dibit) (p : Ports) :
    (offerDin d p).doutReady = p.doutReady := rfl

@[simp] theorem offerDin_errClr (d : Dibit) (p : Ports) :
    (offerDin d p).errClr = p.errClr := rfl

@[simp] theorem assertErrClr_rst (p : Ports) :
    (assertErrClr p).rst = p.rst := rfl

@[simp] theorem assertErrClr_cmdValid (p : Ports) :
    (assertErrClr p).cmdValid = p.cmdValid := rfl

@[simp] theorem assertErrClr_cmdLen (p : Ports) :
    (assertErrClr p).cmdLen = p.cmdLen := rfl

@[simp] theorem assertErrClr_dinValid (p : Ports) :
    (assertErrClr p).dinValid = p.dinValid := rfl

@[simp] theorem assertErrClr_dinDibit (p : Ports) :
    (assertErrClr p).dinDibit = p.dinDibit := rfl

@[simp] theorem assertErrClr_doutReady (p : Ports) :
    (assertErrClr p).doutReady = p.doutReady := rfl

@[simp] theorem assertErrClr_errClr (p : Ports) :
    (assertErrClr p).errClr = true := rfl

@[simp] theorem assertRst_rst (p : Ports) :
    (assertRst p).rst = true := rfl

@[simp] theorem assertRst_cmdValid (p : Ports) :
    (assertRst p).cmdValid = p.cmdValid := rfl

@[simp] theorem assertRst_cmdLen (p : Ports) :
    (assertRst p).cmdLen = p.cmdLen := rfl

@[simp] theorem assertRst_dinValid (p : Ports) :
    (assertRst p).dinValid = p.dinValid := rfl

@[simp] theorem assertRst_dinDibit (p : Ports) :
    (assertRst p).dinDibit = p.dinDibit := rfl

@[simp] theorem assertRst_doutReady (p : Ports) :
    (assertRst p).doutReady = p.doutReady := rfl

@[simp] theorem assertRst_errClr (p : Ports) :
    (assertRst p).errClr = p.errClr := rfl

/-! ### The state after an edge -/

@[simp] theorem resetEdge_config (s : State) :
    (resetEdge s).config = s.config := rfl

@[simp] theorem resetEdge_regs (s : State) :
    (resetEdge s).regs = resetValues := rfl

@[simp] theorem resetEdge_resetSeen (s : State) :
    (resetEdge s).resetSeen = true := rfl

@[simp] theorem resetEdge_inputs (s : State) :
    (resetEdge s).inputs = s.inputs.tail := rfl

@[simp] theorem resetEdge_waitCmd (s : State) :
    (resetEdge s).waitCmd = none := rfl

@[simp] theorem resetEdge_waitDin (s : State) :
    (resetEdge s).waitDin = none := rfl

@[simp] theorem resetEdge_trace (s : State) :
    (resetEdge s).trace = s.trace ++ [{ cmd := none, din := none, dout := none }] := rfl

@[simp] theorem closeEdge_config (p : Ports) (s : State) (r : Regs) :
    (closeEdge p s r).config = s.config := rfl

@[simp] theorem closeEdge_regs (p : Ports) (s : State) (r : Regs) :
    (closeEdge p s r).regs = r := rfl

@[simp] theorem closeEdge_resetSeen (p : Ports) (s : State) (r : Regs) :
    (closeEdge p s r).resetSeen = s.resetSeen := rfl

@[simp] theorem closeEdge_inputs (p : Ports) (s : State) (r : Regs) :
    (closeEdge p s r).inputs = s.inputs.tail := rfl

@[simp] theorem closeEdge_waitCmd (p : Ports) (s : State) (r : Regs) :
    (closeEdge p s r).waitCmd = (if p.cmdValid && !fireCmd p s.regs then some p.cmdLen else none) := rfl

@[simp] theorem closeEdge_waitDin (p : Ports) (s : State) (r : Regs) :
    (closeEdge p s r).waitDin = (if p.dinValid && !fireDin p s.regs then some p.dinDibit else none) := rfl

@[simp] theorem closeEdge_trace (p : Ports) (s : State) (r : Regs) :
    (closeEdge p s r).trace = s.trace ++ [observe s.config.iqTable p s.regs] := rfl

end Sys2Proof.Machine
end

