-- ==== Sys2Proof/Laws/Ops.lean ====
section
/-! SUPPORT. What each shared operation can do, said once: the handshakes, the closing of an edge, the phase adder and
the counter. -/

namespace Sys2Proof.Machine

open Sys2Proof.Safety

/-! ### Handshakes -/

theorem cmdReady_iff (p : Ports) (r : Regs) :
    cmdReady p r = true ↔ p.rst = false ∧ r.st = .idle ∧ canLoad p r = true := by
  simp [cmdReady, and_assoc]

theorem dinReady_iff (p : Ports) (r : Regs) :
    dinReady p r = true ↔ p.rst = false ∧ r.st = .run ∧ canLoad p r = true := by
  simp [dinReady, and_assoc]

theorem fireCmd_iff (p : Ports) (r : Regs) :
    fireCmd p r = true ↔ p.cmdValid = true ∧ p.rst = false ∧ r.st = .idle ∧ canLoad p r = true := by
  simp [fireCmd, cmdReady_iff]

theorem fireDin_iff (p : Ports) (r : Regs) :
    fireDin p r = true ↔ p.dinValid = true ∧ p.rst = false ∧ r.st = .run ∧ canLoad p r = true := by
  simp [fireDin, dinReady_iff]

theorem fireDout_iff (p : Ports) (r : Regs) :
    fireDout p r = true ↔ p.rst = false ∧ r.ov = true ∧ p.doutReady = true := by
  simp [fireDout, doutValid, and_assoc]

/-- A dibit does not fire at an edge at which a command fires. -/
theorem fireDin_of_fireCmd {p : Ports} {r : Regs} (h : fireCmd p r = true) : fireDin p r = false := by
  have hi := ((fireCmd_iff p r).mp h).2.2.1
  simp [fireDin, dinReady, hi]

/-- A command does not fire at an edge at which a dibit fires. -/
theorem fireCmd_of_fireDin {p : Ports} {r : Regs} (h : fireDin p r = true) : fireCmd p r = false := by
  have hi := ((fireDin_iff p r).mp h).2.2.1
  simp [fireCmd, cmdReady, hi]

/-- Where a symbol may be loaded, a held one leaves at the same edge. -/
theorem fireDout_of_canLoad {p : Ports} {r : Regs} (h0 : p.rst = false) (hl : canLoad p r = true) :
    fireDout p r = r.ov := by
  cases ho : r.ov <;> simp_all [fireDout, doutValid, canLoad]

/-! ### Offers -/

@[simp] theorem offerKept_none {α : Type} [DecidableEq α] (valid : Bool) (payload : α) :
    offerKept none valid payload = true := rfl

@[simp] theorem offerKept_some {α : Type} [DecidableEq α] (a : α) (valid : Bool) (payload : α) :
    offerKept (some a) valid payload = (valid && decide (payload = a)) := rfl

/-- A host with nothing waiting has kept its offers. -/
theorem offersKept_of_none {p : Ports} {s : State} (hc : s.waitCmd = none) (hd : s.waitDin = none) :
    offersKept p s = true := by simp [offersKept, hc, hd]

/-! ### Closing an edge -/

/-- The one way an edge answers in a live cycle. -/
theorem atEdge_of_live {p : Ports} {s : State} {r : Regs} (h : Live p s) :
    atEdge p s r = .next (closeEdge p s r) := by
  obtain ⟨hs, hr, hk⟩ := h
  simp [atEdge, hs, hr, hk]

/-- Everything an edge with a next state can be: a reset edge, or a live one. -/
theorem atEdge_cases {p : Ports} {s t : State} {r : Regs} (h : atEdge p s r = .next t) :
    (p.rst = true ∧ t = resetEdge s) ∨ (Live p s ∧ t = closeEdge p s r) := by
  unfold atEdge at h
  cases hr : p.rst
  case true => exact .inl ⟨rfl, by simpa [hr] using h.symm⟩
  case false =>
    cases hs : s.resetSeen <;> cases hk : offersKept p s <;> simp [hr, hs, hk] at h
    exact .inr ⟨⟨hs, hr, hk⟩, h.symm⟩

theorem atEdge_of_rst {p : Ports} {s : State} {r : Regs} (h : p.rst = true) :
    atEdge p s r = .next (resetEdge s) := by simp [atEdge, h]

theorem atEdge_before_reset {p : Ports} {s : State} {r : Regs} (h0 : p.rst = false) (h : s.resetSeen = false) :
    atEdge p s r = .fault .readBeforeFirstReset := by simp [atEdge, h0, h]

/-! ### The phase adder and the counter -/

/-- The 3-bit adder that discards its carry is addition modulo 8. -/
theorem phaseAdd_eq_add (p : Phase) (c : DeltaCode) : phaseAdd p c = p + c := by
  apply BitVec.eq_of_toNat_eq
  simp only [phaseAdd, BitVec.extractLsb'_toNat, BitVec.toNat_add, BitVec.toNat_setWidth]
  have hp := p.isLt
  have hc := c.isLt
  simp only [Nat.shiftRight_zero] at *
  omega

/-- The counter steps down by one from every value but 0. -/
theorem decRem_of_pos {c : Config} {n : Nat} (h1 : 1 ≤ n) (h : n < 2 ^ (c.lenW - 1)) : decRem c n = n - 1 := by
  unfold decRem
  have : n + (2 ^ (c.lenW - 1) - 1) = 2 ^ (c.lenW - 1) + (n - 1) := by omega
  rw [this, Nat.add_mod_left, Nat.mod_eq_of_lt (by omega)]

/-- The counter always fits its width. -/
theorem decRem_lt (c : Config) (n : Nat) : decRem c n < 2 ^ (c.lenW - 1) :=
  Nat.mod_lt _ (Nat.two_pow_pos _)

theorem cmdFieldN_lt (c : Config) (w : Nat) : cmdFieldN c w < 2 ^ (c.lenW - 1) :=
  Nat.mod_lt _ (Nat.two_pow_pos _)

/-- The field `N` of a word that fits is half of it. -/
theorem cmdFieldN_of_fits {c : Config} {w : Nat} (h : w < 2 ^ c.lenW) : cmdFieldN c w = w / 2 := by
  apply Nat.mod_eq_of_lt
  cases hw : c.lenW with
  | zero => simp_all
  | succ k => simp only [hw, Nat.pow_succ, Nat.add_sub_cancel] at *; omega

end Sys2Proof.Machine
end

