-- ==== Sys2Proof/Laws/Exec.lean ====
section
/-! SUPPORT. The inversion lemmas of `exec` and `step`: an edge is one function of its ports, whichever operation names
it. Later proofs cite these and unfold no meaning. -/

namespace Sys2Proof.Machine

open Sys2Proof.Safety

/-- The registers after a live edge, as one function of the cycle's ports. -/
def edgeRegs (c : Config) (p : Ports) (r : Regs) : Regs :=
  if fireCmd p r then acceptCmd c p p.cmdLen r else dinPort c p r

/-- The three things an edge can take, with the firing that makes each. -/
theorem edgeRegs_cases (c : Config) (p : Ports) (r : Regs) :
    (fireCmd p r = true ∧ edgeRegs c p r = acceptCmd c p p.cmdLen r) ∨
    (fireCmd p r = false ∧ fireDin p r = true ∧ edgeRegs c p r = dibStep c p p.dinDibit r) ∨
    (fireCmd p r = false ∧ fireDin p r = false ∧ edgeRegs c p r = quiet p r) := by
  unfold edgeRegs dinPort
  cases fireCmd p r <;> cases fireDin p r <;> simp

/-- An operation is the edge of the cycle that offers it. -/
theorem exec_eq_atEdge (i : Instr) (s : State) :
    exec i s = atEdge (drive i (cycle s)) s (edgeRegs s.config (drive i (cycle s)) s.regs) := by
  have cmd : ∀ w : Nat, fireCmd (offerCmd w (cycle s)) s.regs = cmdReady (offerCmd w (cycle s)) s.regs := by
    intro w; simp [fireCmd]
  have din : ∀ d : Dibit, dibOperation d s =
      atEdge (offerDin d (cycle s)) s (edgeRegs s.config (offerDin d (cycle s)) s.regs) := by
    intro d
    have hf : fireDin (offerDin d (cycle s)) s.regs = dinReady (offerDin d (cycle s)) s.regs := by simp [fireDin]
    simp only [dibOperation, edgeRegs, dinPort, cmdPort, hf]
    cases hd : dinReady (offerDin d (cycle s)) s.regs
    · simp
    · simp [fireCmd_of_fireDin (hf.trans hd)]
  cases i with
  | start n =>
    have hp : cmdFieldP (encode (.start n)) = false := by simp [cmdFieldP, encode]
    simp only [exec, execStart, drive, edgeRegs, cmd, acceptCmd, offerCmd_cmdLen, hp, Bool.false_eq_true, if_false]
  | startOdd n =>
    have hp : cmdFieldP (encode (.startOdd n)) = true := by simp [cmdFieldP, encode]
    simp only [exec, execStartOdd, drive, edgeRegs, cmd, acceptCmd, offerCmd_cmdLen, hp, if_true]
  | dib00 => exact din _
  | dib01 => exact din _
  | dib10 => exact din _
  | dib11 => exact din _
  | errclr => rfl
  | reset => simp [exec, execReset, drive, atEdge]

/-- Everything an operation with a next state can do. -/
theorem exec_cases {i : Instr} {s t : State} (h : exec i s = .next t) :
    ((drive i (cycle s)).rst = true ∧ t = resetEdge s) ∨
    (Live (drive i (cycle s)) s ∧
      t = closeEdge (drive i (cycle s)) s (edgeRegs s.config (drive i (cycle s)) s.regs)) := by
  rw [exec_eq_atEdge] at h
  exact atEdge_cases h

/-- A step runs the operation that the word taken decodes to. -/
theorem step_of_fetch {s : State} {ch : Channel} {w : Nat} {i : Instr} (hf : fetch s = some (ch, w))
    (hd : decode s.config ch w = .ok i) : step s = exec i s := by
  simp [step, hf, hd]

/-- A step whose word decodes to an operation that the cycle already offers is the edge of the cycle. -/
theorem step_of_fetch_drive {s : State} {ch : Channel} {w : Nat} {i : Instr} (hf : fetch s = some (ch, w))
    (hd : decode s.config ch w = .ok i) (he : drive i (cycle s) = cycle s) :
    step s = atEdge (cycle s) s (edgeRegs s.config (cycle s) s.regs) := by
  rw [step_of_fetch hf hd, exec_eq_atEdge, he]

/-- A command word that fits decodes to the operation of its parity, which the word itself offers. -/
theorem decode_cmd_drive {c : Config} {p : Ports} (hv : p.cmdValid = true) (hlt : p.cmdLen < 2 ^ c.lenW) :
    ∃ i, decode c .cmd p.cmdLen = .ok i ∧ drive i p = p := by
  cases hp : cmdFieldP p.cmdLen
  · refine ⟨.start (cmdFieldN c p.cmdLen), by simp [decode, decodeCmd, hlt, hp], ?_⟩
    have : 2 * (p.cmdLen / 2) = p.cmdLen := by simp [cmdFieldP] at hp; omega
    simp only [drive, offerCmd, encode, cmdFieldN_of_fits hlt, this, ← hv]
  · refine ⟨.startOdd (cmdFieldN c p.cmdLen), by simp [decode, decodeCmd, hlt, hp], ?_⟩
    have : 2 * (p.cmdLen / 2) + 1 = p.cmdLen := by simp [cmdFieldP] at hp; omega
    simp only [drive, offerCmd, encode, cmdFieldN_of_fits hlt, this, ← hv]

/-- Every dibit word decodes to the operation it selects, which the word itself offers. -/
theorem decode_din_drive {c : Config} {p : Ports} (hv : p.dinValid = true) :
    ∃ i, decode c .din p.dinDibit.toNat = .ok i ∧ drive i p = p := by
  have offer : ∀ d, p.dinDibit = d → offerDin d p = p := by
    intro d e; subst e; simp only [offerDin, ← hv]
  have values : ∀ d : Dibit, d = 0b00#2 ∨ d = 0b01#2 ∨ d = 0b10#2 ∨ d = 0b11#2 := by decide
  rcases values p.dinDibit with e | e | e | e
  · exact ⟨.dib00, by rw [e]; rfl, offer _ e⟩
  · exact ⟨.dib01, by rw [e]; rfl, offer _ e⟩
  · exact ⟨.dib10, by rw [e]; rfl, offer _ e⟩
  · exact ⟨.dib11, by rw [e]; rfl, offer _ e⟩

/-- A step is the edge of the coming cycle, when the word on `cmd_len` fits or is not transferred. -/
theorem step_eq_atEdge {s : State} (hf : CmdFits s.config (cycle s) s.regs) :
    step s = atEdge (cycle s) s (edgeRegs s.config (cycle s) s.regs) := by
  by_cases hr : (cycle s).rst = true
  · have hk : fetch s = some (.rst, 1) := by simp [fetch, hr]
    rw [step_of_fetch hk (i := .reset) rfl, atEdge_of_rst hr]; rfl
  by_cases hc : fireCmd (cycle s) s.regs = true
  · have hk : fetch s = some (.cmd, (cycle s).cmdLen) := by simp [fetch, hr, hc]
    obtain ⟨i, hd, he⟩ := decode_cmd_drive ((fireCmd_iff _ _).mp hc).1 (hf hc)
    exact step_of_fetch_drive hk hd he
  by_cases hd : fireDin (cycle s) s.regs = true
  · have hk : fetch s = some (.din, (cycle s).dinDibit.toNat) := by simp [fetch, hr, hc, hd]
    obtain ⟨i, hd', he⟩ := decode_din_drive (c := s.config) ((fireDin_iff _ _).mp hd).1
    exact step_of_fetch_drive hk hd' he
  by_cases hx : (cycle s).errClr = true
  · have hk : fetch s = some (.errClr, 1) := by simp [fetch, hr, hc, hd, hx]
    exact step_of_fetch_drive hk (i := .errclr) rfl (by simp only [drive, assertErrClr, ← hx])
  · have hk : fetch s = none := by simp [fetch, hr, hc, hd, hx]
    simp [step, hk, idleEdge, edgeRegs, dinPort, hc, hd]

/-- A step whose transferred command word does not fit is refused. -/
theorem step_of_not_fits {s : State} (hf : ¬CmdFits s.config (cycle s) s.regs) :
    step s = .refused .portWordOutOfRange := by
  obtain ⟨hc, hlt⟩ : fireCmd (cycle s) s.regs = true ∧ ¬(cycle s).cmdLen < 2 ^ s.config.lenW := by
    simpa [CmdFits] using hf
  have hr := ((fireCmd_iff _ _).mp hc).2.1
  have hk : fetch s = some (.cmd, (cycle s).cmdLen) := by simp [fetch, hr, hc]
  simp [step, hk, decode, decodeCmd, hlt]

/-- Everything a step with a next state can do. -/
theorem step_cases {s t : State} (h : step s = .next t) :
    ((cycle s).rst = true ∧ t = resetEdge s) ∨
    (Live (cycle s) s ∧ CmdFits s.config (cycle s) s.regs ∧
      t = closeEdge (cycle s) s (edgeRegs s.config (cycle s) s.regs)) := by
  by_cases hf : CmdFits s.config (cycle s) s.regs
  · rw [step_eq_atEdge hf] at h
    rcases atEdge_cases h with h | ⟨hl, ht⟩
    · exact .inl h
    · exact .inr ⟨hl, hf, ht⟩
  · rw [step_of_not_fits hf] at h; cases h

/-- A live step with a word that fits has a next state. -/
theorem step_of_live {s : State} (hl : Live (cycle s) s) (hf : CmdFits s.config (cycle s) s.regs) :
    step s = .next (closeEdge (cycle s) s (edgeRegs s.config (cycle s) s.regs)) := by
  rw [step_eq_atEdge hf, atEdge_of_live hl]

end Sys2Proof.Machine
end

