-- ==== Sys2Proof/Laws/PerInstr.lean ====
section
/-! SUPPORT. Laws about every operation as syntax, one lemma per constructor. -/

/-- Family `EncodeFits`: the word of a well-formed operation fits its channel's wires (R57, R60). -/
def Sys2Proof.Laws.EncodeFits.Statement (i : Sys2Proof.Instr) : Prop :=
  ∀ c : Sys2Proof.Config, c.lenOk = true → i.wf c = true →
    Sys2Proof.encode i < 2 ^ Sys2Proof.channelWidth c i.channel

namespace Sys2Proof.Laws.EncodeFits

/-- Twice the field and its parity bit fit `LEN_W` bits. -/
theorem cmd_fits {c : Config} {n b : Nat} (hw : 2 ≤ c.lenW) (hn : n < 2 ^ (c.lenW - 1)) (hb : b ≤ 1) :
    2 * n + b < 2 ^ c.lenW := by
  obtain ⟨k, hk⟩ : ∃ k, c.lenW = k + 1 := ⟨c.lenW - 1, by omega⟩
  simp only [hk, Nat.pow_succ, Nat.add_sub_cancel] at *
  omega

theorem start (n : Nat) : Statement (.start n) := fun c hw hn => by
  simpa [encode, channelWidth, Instr.channel] using
    cmd_fits (b := 0) (by simpa [Config.lenOk] using hw) (by simpa [Instr.wf] using hn) (by omega)

theorem startOdd (n : Nat) : Statement (.startOdd n) := fun c hw hn => by
  simpa [encode, channelWidth, Instr.channel] using
    cmd_fits (b := 1) (by simpa [Config.lenOk] using hw) (by simpa [Instr.wf] using hn) (by omega)

theorem dib00 : Statement .dib00 := fun _ _ _ => by simp [encode, channelWidth, Instr.channel]
theorem dib01 : Statement .dib01 := fun _ _ _ => by simp [encode, channelWidth, Instr.channel]
theorem dib10 : Statement .dib10 := fun _ _ _ => by simp [encode, channelWidth, Instr.channel]
theorem dib11 : Statement .dib11 := fun _ _ _ => by simp [encode, channelWidth, Instr.channel]
theorem errclr : Statement .errclr := fun _ _ _ => by simp [encode, channelWidth, Instr.channel]
theorem reset : Statement .reset := fun _ _ _ => by simp [encode, channelWidth, Instr.channel]

end Sys2Proof.Laws.EncodeFits
end

