-- ==== Sys2Proof/Laws/RunEnd.lean ====
section
/-! SUPPORT. What the end of a run says, and what the runs that stop there can do. -/

namespace Sys2Proof.Machine

open Sys2Proof.Safety

theorem quiescent_iff (r : Regs) : quiescent r = true ↔ r.st = .idle ∧ r.ov = false := by simp [quiescent]

theorem nothingToOffer_iff (s : State) :
    nothingToOffer s = true ↔ s.waitCmd = none ∧ s.waitDin = none ∧
      ∀ p ∈ s.inputs, p.cmdValid = false ∧ p.dinValid = false := by
  simp [nothingToOffer, and_assoc]

theorem runEnded_iff (s : State) :
    runEnded s = true ↔ s.resetSeen = true ∧ (s.regs.st = .idle ∧ s.regs.ov = false) ∧ nothingToOffer s = true := by
  simp [runEnded, quiescent_iff, and_assoc]

/-- The coming cycle of a host with nothing left to offer carries no offer. -/
theorem cycle_of_nothingToOffer {s : State} (h : nothingToOffer s = true) :
    (cycle s).cmdValid = false ∧ (cycle s).dinValid = false := by
  obtain ⟨hc, hd, hi⟩ := (nothingToOffer_iff s).mp h
  unfold cycle
  cases hs : s.inputs with
  | nil => simp [restPorts, hc, hd]
  | cons p rest => exact hi p (by simp [hs])

/-- A run that is over: its coming edge is a reset edge, or only moves the error flags. -/
theorem step_of_runEnded {s : State} (h : runEnded s = true) :
    step s = .next (if (cycle s).rst then resetEdge s else closeEdge (cycle s) s (settleFlags (cycle s) s.regs)) := by
  obtain ⟨hs, ⟨-, ho⟩, hn⟩ := (runEnded_iff s).mp h
  obtain ⟨hc, hd⟩ := cycle_of_nothingToOffer hn
  obtain ⟨wc, wd, -⟩ := (nothingToOffer_iff s).mp hn
  have fc : fireCmd (cycle s) s.regs = false := by simp [fireCmd, hc]
  have fd : fireDin (cycle s) s.regs = false := by simp [fireDin, hd]
  have hq : edgeRegs s.config (cycle s) s.regs = settleFlags (cycle s) s.regs := by
    simp [edgeRegs, dinPort, fc, fd, quiet, drain, settleFlags, ho]
  rw [step_eq_atEdge (by simp [CmdFits, fc]), hq]
  cases hr : (cycle s).rst
  · simp [atEdge_of_live ⟨hs, hr, offersKept_of_none wc wd⟩]
  · simp [atEdge_of_rst hr]

/-! ### Running to the end -/

theorem runToEnd_of_ended {s : State} (n : Nat) (h : runEnded s = true) : runToEnd n s = .next s := by
  cases n <;> simp [runToEnd, h]

theorem runToEnd_of_step {s t : State} {n : Nat} (h : runEnded s = false) (ht : step s = .next t) :
    runToEnd (n + 1) s = runToEnd n t := by simp [runToEnd, h, ht]

theorem scriptEnded_iff (h : ScriptHost) (s : State) :
    scriptEnded h s = true ↔
      s.resetSeen = true ∧ (s.regs.st = .idle ∧ s.regs.ov = false) ∧ h.starts = [] ∧ h.dibs = [] := by
  simp [scriptEnded, quiescent_iff, and_assoc]

theorem scriptToEnd_of_ended {h : ScriptHost} {s : State} (e n : Nat) (hs : scriptEnded h s = true) :
    scriptToEnd h e s n = .next (h, s) := by
  cases n <;> simp [scriptToEnd, hs]

theorem scriptToEnd_of_edge {h h' : ScriptHost} {s t : State} {e n : Nat} (hs : scriptEnded h s = false)
    (ht : scriptEdge h e s = .next (h', t)) : scriptToEnd h e s (n + 1) = scriptToEnd h' (e + 1) t n := by
  simp [scriptToEnd, hs, ht]

end Sys2Proof.Machine
end

