-- ==== Sys2Proof/Tests/Slice0.lean ====
section
/-! SUPPORT. The model's own tests. Expected results are written out from the spec: the patterns of R66, the vectors S1 to
S10 and V1 to V25 and the tables of spec/95_test_vectors.md, and the examples in the rules. The last part shows, for every
statement of Certificates/Slice0/Obligations.lean that has hypotheses, a state and operands that meet them together. -/

namespace Sys2Proof.Tests

open Sys2Proof.Machine Sys2Proof.Safety

/-! ### Helpers -/

/-- Registers in the order of spec/95_test_vectors.md: `ST PHASE REM OV OPH OREF OLAST ERRS ERRP`. -/
def mkRegs (st : SeqState) (phase : Phase) (rem : Nat) (ov : Bool) (oph : Phase) (oref olast errs errp : Bool) : Regs :=
  { st, phase, rem, ov, oph, oref, olast, errs, errp }

/-- A cycle with nothing offered and downstream ready. -/
def readyCycle : Ports :=
  { rst := false, cmdValid := false, cmdLen := 0, dinValid := false, dinDibit := 0, doutReady := true, errClr := false }

/-- A cycle with a command offered and downstream ready. -/
def cmdCycle (w : Nat) : Ports := { readyCycle with cmdValid := true, cmdLen := w }

/-- A cycle with a dibit offered and downstream ready. -/
def dinCycle (d : Dibit) : Ports := { readyCycle with dinValid := true, dinDibit := d }

/-- A cycle with downstream not ready. -/
def stalled (p : Ports) : Ports := { p with doutReady := false }

/-- The default build after reset, with registers `r` and the cycles `ps` to come. -/
def mkState (r : Regs) (ps : List Ports) : State := { State.reset with regs := r, inputs := ps }

/-- The next state, if there is one. -/
def nextOf (o : Host.Outcome State Fault Refusal) : Option State :=
  match o with
  | .next t => some t
  | .fault _ => none
  | .refused _ => none

/-- The next state, or `s` if there is none. -/
def nextOr (s : State) (o : Host.Outcome State Fault Refusal) : State :=
  match o with
  | .next t => t
  | .fault _ => s
  | .refused _ => s

/-- The registers after a step of `mkState r [p]`, and what the edge shows. -/
def edgeOf (r : Regs) (p : Ports) : Option (Regs × List EdgeObs) :=
  (nextOf (step (mkState r [p]))).map fun t => (t.regs, t.trace)

/-- The refusal of an outcome, if it is one. -/
def refusalOf (o : Host.Outcome State Fault Refusal) : Option Refusal :=
  match o with
  | .next _ => none
  | .fault _ => none
  | .refused r => some r

/-- The fault of an outcome, if it is one. -/
def faultOf (o : Host.Outcome State Fault Refusal) : Option Fault :=
  match o with
  | .next _ => none
  | .fault f => some f
  | .refused _ => none

/-- The operation a decoding gives, if it gives one. -/
def okOf (r : Except DecodeError Instr) : Option Instr :=
  match r with
  | .ok i => some i
  | .error _ => none

/-- The rejection a decoding gives, if it gives one. -/
def errorOf (r : Except DecodeError Instr) : Option DecodeError :=
  match r with
  | .ok _ => none
  | .error e => some e

/-! ### Well-formedness: an ill-formed term for each check -/

theorem test_wf_refuses_start_too_long : (Instr.start 0x8000).wf standardConfig = false := by decide
theorem test_wf_refuses_startOdd_too_long : (Instr.startOdd 0x8000).wf standardConfig = false := by decide
theorem test_wf_admits_longest : (Instr.start 0x7FFF).wf standardConfig = true := by decide
theorem test_lenOk_refuses_width_1 : ({ standardConfig with lenW := 1 } : Config).lenOk = false := by decide
/-- R40 (a): entry 0 is exact; here it is the entry of π/4. -/
theorem test_admissible_refuses_entry0 :
    admissibleTable (iqCanon.set 0 ⟨b64R, b64R⟩) = false := by decide +kernel
/-- R40 (b): entry 2 within 1e-6 of (0, 1); here it is (1, 0). -/
theorem test_admissible_refuses_far_entry :
    admissibleTable (iqCanon.set 2 ⟨b64One, b64Zero⟩) = false := by decide +kernel
/-- R40 (b): a component is finite; here entry 4 holds −∞. -/
theorem test_admissible_refuses_infinity :
    admissibleTable (iqCanon.set 4 ⟨0xFFF0000000000000#64, b64Zero⟩) = false := by decide +kernel
/-- 93_implementation_defined.md G3: a table computed at run time, which "meets rule R40". -/
theorem test_admissible_runtime_table :
    admissibleTable #v[⟨b64One, b64Zero⟩, ⟨0x3FE6A09E667F3BCD#64, 0x3FE6A09E667F3BCC#64⟩,
      ⟨0x3C91A62633145C07#64, b64One⟩, ⟨0xBFE6A09E667F3BCC#64, 0x3FE6A09E667F3BCD#64⟩,
      ⟨b64NegOne, 0x3CA1A62633145C07#64⟩, ⟨0xBFE6A09E667F3BCE#64, 0xBFE6A09E667F3BCC#64⟩,
      ⟨0xBCAA79394C9E8A0A#64, b64NegOne⟩, ⟨0x3FE6A09E667F3BCB#64, 0xBFE6A09E667F3BCE#64⟩] = true := by decide +kernel
theorem test_standard_config_is_legal : legalConfig standardConfig = true := by decide +kernel

/-! ### Decoding: words written out from the patterns of R66 -/

theorem test_decode_start : okOf (decode standardConfig .cmd 0b0000000000000100) = some (.start 2) := by decide
theorem test_decode_start_longest :
    okOf (decode standardConfig .cmd 0b1111111111111110) = some (.start 32767) := by decide
theorem test_decode_startOdd : okOf (decode standardConfig .cmd 0b0000000000000011) = some (.startOdd 1) := by decide
theorem test_decode_dib00 : okOf (decode standardConfig .din 0b00) = some .dib00 := by decide
theorem test_decode_dib01 : okOf (decode standardConfig .din 0b01) = some .dib01 := by decide
theorem test_decode_dib10 : okOf (decode standardConfig .din 0b10) = some .dib10 := by decide
theorem test_decode_dib11 : okOf (decode standardConfig .din 0b11) = some .dib11 := by decide
theorem test_decode_errclr : okOf (decode standardConfig .errClr 0b1) = some .errclr := by decide
theorem test_decode_reset : okOf (decode standardConfig .rst 0b1) = some .reset := by decide
/-- R64: a `START` of `2^LEN_W` spells no transfer. -/
theorem test_decode_rejects_wide_cmd :
    errorOf (decode standardConfig .cmd 0x10000) = some (.wordTooWide .cmd) := by decide
theorem test_decode_rejects_wide_din : errorOf (decode standardConfig .din 4) = some (.wordTooWide .din) := by decide
/-- R56: "A value 0 on either does nothing." -/
theorem test_decode_inactive_control :
    errorOf (decode standardConfig .errClr 0) = some (.controlInactive .errClr) := by decide
/-- `LEN_W` is a parameter: at width 4 the longest even word is `0b1110`. -/
theorem test_decode_start_width_4 :
    okOf (decode { standardConfig with lenW := 4 } .cmd 0b1110) = some (.start 7) := by decide
theorem test_table_word_start : decodeTableWord 16 0xFFFE = some (.start 32767) := by decide
theorem test_table_word_dib11 : decodeTableWord 8 3 = some .dib11 := by decide

/-! ### One edge: vectors of spec/95_test_vectors.md section 2.2 -/

/-- V4: `START` clears a stale `PHASE`. -/
theorem test_V4 : edgeOf (mkRegs .idle 6 0 false 6 false true false false) (cmdCycle 4) =
    some (mkRegs .run 0 2 true 0 true false false false, [{ cmd := some 4, din := none, dout := none }]) := by decide
/-- V5: `START` while the previous symbol leaves. -/
theorem test_V5 : edgeOf (mkRegs .idle 3 0 true 3 false true false false) (cmdCycle 2) =
    some (mkRegs .run 0 1 true 0 true false false false,
      [{ cmd := some 2, din := none, dout := some ⟨3, 0xBFE6A09E667F3BCD#64, 0x3FE6A09E667F3BCD#64, false, true⟩ }]) := by
  decide
/-- V10: an odd command wins against `err_clr` at the same edge. -/
theorem test_V10 : edgeOf (mkRegs .idle 0 0 false 0 false false false false) { cmdCycle 3 with errClr := true } =
    some (mkRegs .idle 0 0 false 0 false false true true, [{ cmd := some 3, din := none, dout := none }]) := by decide
/-- V11: an odd command while `ERRS = 1` and a symbol leaves. -/
theorem test_V11 : edgeOf (mkRegs .idle 5 0 true 5 false true true false) (cmdCycle 5) =
    some (mkRegs .idle 5 0 false 5 false true true true,
      [{ cmd := some 5, din := none, dout := some ⟨5, 0xBFE6A09E667F3BCD#64, 0xBFE6A09E667F3BCD#64, false, true⟩ }]) := by
  decide
/-- V13: `DIB00` wraps 7 to 0. -/
theorem test_V13 : edgeOf (mkRegs .run 7 3 false 7 false false false false) (dinCycle 0b00) =
    some (mkRegs .run 0 2 true 0 false false false false, [{ cmd := none, din := some 0, dout := none }]) := by decide
/-- V14: `DIB01` wraps 6 to 1 and closes the frame. -/
theorem test_V14 : edgeOf (mkRegs .run 6 1 false 6 false false false false) (dinCycle 0b01) =
    some (mkRegs .idle 1 0 true 1 false true false false, [{ cmd := none, din := some 1, dout := none }]) := by decide
/-- V20: `err_clr` and a dibit at one edge: both happen. -/
theorem test_V20 : edgeOf (mkRegs .run 2 2 false 2 false false true false) { dinCycle 0b01 with errClr := true } =
    some (mkRegs .run 5 1 true 5 false false false false, [{ cmd := none, din := some 1, dout := none }]) := by decide
/-- V15: `DIB10` wraps 0 to 7 while the reference symbol leaves. -/
theorem test_V15 : edgeOf (mkRegs .run 0 2 true 0 true false false false) (dinCycle 0b10) =
    some (mkRegs .run 7 1 true 7 false false false false,
      [{ cmd := none, din := some 2, dout := some ⟨0, 0x3FF0000000000000#64, 0, true, false⟩ }]) := by decide
/-- V16: `DIB11` wraps 1 to 6 and closes the frame. -/
theorem test_V16 : edgeOf (mkRegs .run 1 1 false 1 false false false false) (dinCycle 0b11) =
    some (mkRegs .idle 6 0 true 6 false true false false, [{ cmd := none, din := some 3, dout := none }]) := by decide
/-- V18: a dibit with no frame open waits. -/
theorem test_V18 : edgeOf resetValues (dinCycle 0b10) =
    some (resetValues, [{ cmd := none, din := none, dout := none }]) := by decide
/-- V19: a dibit waits while the symbol is held. -/
theorem test_V19 : edgeOf (mkRegs .run 2 2 true 2 false false false false) (stalled (dinCycle 0b00)) =
    some (mkRegs .run 2 2 true 2 false false false false, [{ cmd := none, din := none, dout := none }]) := by decide
/-- V23: `ERRCLR` alone. -/
theorem test_V23 : edgeOf (mkRegs .idle 0 0 false 0 false false true true) { readyCycle with errClr := true } =
    some (resetValues, [{ cmd := none, din := none, dout := none }]) := by decide
/-- V24: `ERRP` falls after one edge and `ERRS` stays. -/
theorem test_V24 : edgeOf (mkRegs .idle 0 0 false 0 false false true true) readyCycle =
    some (mkRegs .idle 0 0 false 0 false false true false, [{ cmd := none, din := none, dout := none }]) := by decide
/-- V25: `RESET` in mid-frame with everything else offered. -/
theorem test_V25 : edgeOf (mkRegs .run 5 5 true 5 false false true false)
      { rst := true, cmdValid := true, cmdLen := 2, dinValid := true, dinDibit := 0b11, doutReady := true, errClr := true } =
    some (resetValues, [{ cmd := none, din := none, dout := none }]) := by decide

/-- R65: `ENCODE 0000` is `START 4; DIB 00; DIB 00`. -/
theorem test_script_encode :
    parseLine standardConfig ['E', 'N', 'C', 'O', 'D', 'E', ' ', '0', '0', '0', '0', ' ', ';', 'x'] =
      .ok [.start 4, .dib 0, .dib 0] := by rfl
/-- R64: a `START` that does not fit `LEN_W` bits is refused by the tool. -/
theorem test_script_refuses_wide_start :
    parseLine standardConfig ['S', 'T', 'A', 'R', 'T', ' ', '0', 'x', '1', '0', '0', '0', '0'] =
      .error .lengthDoesNotFit := by rfl
/-- Section 2.3: `11011000` gives phases 0, 5, 0, 7, 0. -/
theorem test_enc_11011000 :
    encIndices [true, true, false, true, true, false, false, false] = .ok [0, 5, 0, 7, 0] := by rfl
/-- S3: every odd length fails, 1 included. -/
theorem test_enc_odd : encIndices [true] = .error .invalidInputLength := by rfl

/-- R115: "A run in which the block stays in `RUN`, or keeps `OV = 1`, is not over": a frame with a dibit due and a host
with nothing to offer. -/
theorem test_run_not_over_in_run :
    runResult (mkState (mkRegs .run 3 2 false 3 false false false false) []) = none := by decide

/-- R115 with the source's vector "`encode([0,1])` → dibit 1 → delta +3 → phase 3" (R74): the run of `ENCODE 01` is over
with the phases 0 and 3 delivered and no error, whatever its bound on edges. -/
theorem test_run_end_encode_01 :
    (match scriptToEnd (scriptHost (.resetAt 0 :: encodeOps [false, true])) 0
        (powerOn standardConfig (mkRegs .run 5 1 true 2 false true true true)) 9 with
      | .next (h, t) => (scriptResult h t).map fun y => (y.symbols.map (·.phase), y.errLen)
      | .fault _ => none
      | .refused _ => none) = some ([0, 3], false) := by decide

/-- R64: a word that does not fit `cmd_len` is refused by name at its transfer. -/
theorem test_step_refuses_wide_word :
    refusalOf (step (mkState resetValues [cmdCycle 0x10000])) = some .portWordOutOfRange := by decide

/-! ### Witnesses: the hypotheses of each statement met together -/

/-- A state in `RUN` with a symbol held. -/
def runHeld : Regs := mkRegs .run 2 2 true 2 false false false false
/-- A state in `RUN` with the last dibit due and nothing held. -/
def runLast : Regs := mkRegs .run 7 1 false 7 false false false false
/-- A state in `IDLE` with the last symbol of a frame held. -/
def idleHeld : Regs := mkRegs .idle 3 0 true 3 false true false false
/-- The largest count of the default build due. -/
def runLongest : Regs := mkRegs .run 0 0x7FFF false 0 false false false false

theorem witness_DecodeOfEncodeIsTheOperation :
    ∃ (c : Config) (i : Instr), c.lenOk = true ∧ i.wf c = true ∧ encode i = 0xFFFF :=
  ⟨standardConfig, .startOdd 0x7FFF, by decide, by decide, by decide⟩

theorem witness_EveryChannelWordSelectsOneOperation :
    ∃ c : Config, c.lenOk = true ∧ 0xFFFF < 2 ^ c.lenW ∧ (3 : Nat) < 4 ∧
      ((Channel.rst, Instr.reset) ∈ [(Channel.errClr, Instr.errclr), (.rst, .reset)]) :=
  ⟨standardConfig, by decide, by decide, by decide, by decide⟩

theorem witness_EveryChannelWordSelectsOneOperation_narrowest :
    ∃ c : Config, c.lenOk = true ∧ c.lenW = 2 ∧ 3 < 2 ^ c.lenW :=
  ⟨{ standardConfig with lenW := 2 }, by decide, rfl, by decide⟩

theorem witness_NothingWritesTheTables :
    ∃ (i : Instr) (s t u : State) (k : Nat), exec i s = .next t ∧ runSteps k s = .next u ∧ k = 2 :=
  ⟨.dib10, mkState runLast [dinCycle 0b10], _, _, 2, rfl, rfl, rfl⟩

theorem witness_StepRunsTheWordThatFires :
    ∃ (s : State) (ch : Channel) (w : Nat) (i : Instr),
      fetch s = some (ch, w) ∧ decode s.config ch w = .ok i ∧ i = .start 0x7FFF :=
  ⟨mkState idleHeld [cmdCycle 0xFFFE], .cmd, 0xFFFE, .start 0x7FFF, by decide, rfl, rfl⟩

theorem witness_StepRunsTheWordThatFires_errclr :
    ∃ s : State, fetch s = some (.errClr, 1) ∧ decode s.config .errClr 1 = .ok .errclr :=
  ⟨mkState idleHeld [{ readyCycle with errClr := true }], by decide, rfl⟩

theorem witness_EdgeWithNoWordOnlyDrains :
    ∃ s : State, Live (cycle s) s ∧ fetch s = none ∧ s.regs.ov = true ∧ (cycle s).cmdValid = true :=
  ⟨mkState runHeld [cmdCycle 4], by decide, by decide, by decide, by decide⟩

theorem witness_StepIsTheCompleteStepOfOneEdge :
    ∃ s : State, s.resetSeen = true ∧ offersKept (cycle s) s = true ∧ CmdFits s.config (cycle s) s.regs ∧
      s.regs.rem < 2 ^ (s.config.lenW - 1) ∧ fireDin (cycle s) s.regs = true :=
  ⟨mkState runLongest [dinCycle 0b11], by decide, by decide, by decide, by decide, by decide⟩

theorem witness_EveryOperationIsTheEdgeThatOffersIt :
    ∃ (i : Instr) (s : State), s.resetSeen = true ∧ offersKept (drive i (cycle s)) s = true ∧
      CmdFits s.config (drive i (cycle s)) s.regs ∧ s.regs.rem < 2 ^ (s.config.lenW - 1) ∧ s.waitCmd = some 0xFFFE :=
  ⟨.start 0x7FFF, { mkState idleHeld [cmdCycle 0xFFFE] with waitCmd := some 0xFFFE }, by decide, by decide, by decide,
    by decide, rfl⟩

theorem witness_CommandsInIdleAndDibitsInRun_cmd :
    ∃ (s t : State), step s = .next t ∧ acceptedCmds t.trace = [3] :=
  ⟨mkState idleHeld [cmdCycle 3], _, rfl, by decide⟩

theorem witness_CommandsInIdleAndDibitsInRun_din :
    ∃ (s t : State), step s = .next t ∧ acceptedDins t.trace = [0b11] :=
  ⟨mkState runLast [dinCycle 0b11], _, rfl, by decide⟩

theorem witness_PayloadsOutsideATransferAreNotRead :
    ∃ (s t t' : State) (p p' : Ports) (rest : List Ports),
      { p with cmdLen := p'.cmdLen, dinDibit := p'.dinDibit } = p' ∧
      (fireCmd p s.regs = true → p.cmdLen = p'.cmdLen) ∧ (fireDin p s.regs = true → p.dinDibit = p'.dinDibit) ∧
      step { s with inputs := p :: rest } = .next t ∧ step { s with inputs := p' :: rest } = .next t' ∧ p ≠ p' :=
  ⟨mkState runHeld [], _, _, cmdCycle 4, cmdCycle 6, [], by decide, by decide, by decide, rfl, rfl, by decide⟩

theorem witness_StartOpensAFrame :
    ∃ (s : State) (n : Nat), (Instr.start n).wf s.config = true ∧ Live (drive (.start n) (cycle s)) s ∧
      s.regs.st = .idle ∧ (s.regs.ov = false ∨ (cycle s).doutReady = true) ∧ n = 0x7FFF :=
  ⟨mkState idleHeld [readyCycle], 0x7FFF, by decide, by decide, by decide, by decide, rfl⟩

theorem witness_StartOpensAFrame_empty :
    ∃ (s : State) (n : Nat), (Instr.start n).wf s.config = true ∧ Live (drive (.start n) (cycle s)) s ∧
      s.regs.st = .idle ∧ (s.regs.ov = false ∨ (cycle s).doutReady = true) ∧ n = 0 :=
  ⟨mkState resetValues [stalled readyCycle], 0, by decide, by decide, by decide, by decide, rfl⟩

theorem witness_StartOddRaisesInvalidInputLength :
    ∃ (s : State) (n : Nat), (Instr.startOdd n).wf s.config = true ∧ Live (drive (.startOdd n) (cycle s)) s ∧
      s.regs.st = .idle ∧ (s.regs.ov = false ∨ (cycle s).doutReady = true) ∧ (cycle s).errClr = true :=
  ⟨mkState idleHeld [{ readyCycle with errClr := true }], 0, by decide, by decide, by decide, by decide, rfl⟩

theorem witness_DibitStepsThePhase :
    ∃ (s : State) (i : Instr) (d : Dibit) (δ : Int),
      (i, d, δ) ∈ [(Instr.dib00, 0b00#2, (1 : Int)), (.dib01, 0b01#2, 3), (.dib10, 0b10#2, -1), (.dib11, 0b11#2, -3)] ∧
      Live (drive i (cycle s)) s ∧ s.regs.st = .run ∧ (s.regs.ov = false ∨ (cycle s).doutReady = true) ∧
      1 ≤ s.regs.rem ∧ s.regs.rem < 2 ^ (s.config.lenW - 1) ∧ s.regs.rem = 1 :=
  ⟨mkState runLast [readyCycle], .dib11, 0b11, -3, by decide, by decide, by decide, by decide, by decide, by decide, rfl⟩

theorem witness_DibitStepsThePhase_longest :
    ∃ s : State, Live (drive .dib00 (cycle s)) s ∧ s.regs.st = .run ∧ s.regs.ov = false ∧
      1 ≤ s.regs.rem ∧ s.regs.rem + 1 = 2 ^ (s.config.lenW - 1) :=
  ⟨mkState runLongest [readyCycle], by decide, by decide, by decide, by decide, by decide⟩

theorem witness_PhaseTransitionTable :
    ∃ (i : Instr) (row : List Nat) (p : Phase) (s : State),
      (i, row) ∈ [(Instr.dib00, [1, 2, 3, 4, 5, 6, 7, 0]), (.dib01, [3, 4, 5, 6, 7, 0, 1, 2]),
        (.dib10, [7, 0, 1, 2, 3, 4, 5, 6]), (.dib11, [5, 6, 7, 0, 1, 2, 3, 4])] ∧
      s.regs.phase = p ∧ s.regs.st = .run ∧ (s.regs.ov = false ∨ (cycle s).doutReady = true) ∧
      Live (drive i (cycle s)) s ∧ p = 7 :=
  ⟨.dib00, [1, 2, 3, 4, 5, 6, 7, 0], 7, mkState runLast [readyCycle], by decide, rfl, by decide, by decide, by decide, rfl⟩

theorem witness_ErrClrClearsTheStickyFlag :
    ∃ s : State, Live (cycle s) s ∧ fireCmd (cycle s) s.regs = false ∧ fireDin (cycle s) s.regs = false ∧
      s.regs.errs = true :=
  ⟨mkState (mkRegs .idle 0 0 true 0 true true true true) [readyCycle], by decide, by decide, by decide, rfl⟩

theorem witness_ErrClrWritesNothingButErrs :
    ∃ (s : State) (p : Ports) (rest : List Ports), s.inputs = p :: rest ∧ Live p s ∧ CmdFits s.config p s.regs ∧
      fireCmd p s.regs = true ∧ p.cmdLen % 2 = 1 :=
  ⟨mkState idleHeld [cmdCycle 0xFFFF], cmdCycle 0xFFFF, [], rfl, by decide, by decide, by decide, by decide⟩

theorem witness_ErrClrWritesNothingButErrs_dibit :
    ∃ (s : State) (p : Ports) (rest : List Ports), s.inputs = p :: rest ∧ Live p s ∧ CmdFits s.config p s.regs ∧
      fireDin p s.regs = true ∧ s.regs.errs = true :=
  ⟨mkState (mkRegs .run 2 2 false 2 false false true false) [dinCycle 1], dinCycle 1, [], rfl, by decide, by decide,
    by decide, rfl⟩

theorem witness_RstOverridesEveryOperation :
    ∃ s : State, (cycle s).rst = true ∧ (cycle s).cmdValid = true ∧ s.regs.ov = true :=
  ⟨mkState idleHeld [{ cmdCycle 3 with rst := true }], by decide, by decide, by decide⟩

theorem witness_ReadyForACommandAfterReset :
    ∃ (s t : State) (p : Ports), exec .reset s = .next t ∧ p.rst = false ∧ s.regs.st = .run :=
  ⟨mkState runHeld [], _, readyCycle, rfl, by decide, by decide⟩

theorem witness_CommandWaitsUntilReady_run :
    ∃ (s : State) (i : Instr), i.channel = .cmd ∧ Live (drive i (cycle s)) s ∧
      (s.regs.st = .run ∨ (s.regs.ov = true ∧ (cycle s).doutReady = false)) ∧
      fireDin (cycle s) s.regs = false ∧ s.regs.st = .run :=
  ⟨mkState runHeld [readyCycle], .startOdd 0, rfl, by decide, by decide, by decide, rfl⟩

theorem witness_CommandWaitsUntilReady_held :
    ∃ (s : State) (i : Instr), i.channel = .cmd ∧ Live (drive i (cycle s)) s ∧
      (s.regs.st = .run ∨ (s.regs.ov = true ∧ (cycle s).doutReady = false)) ∧
      fireDin (cycle s) s.regs = false ∧ s.regs.st = .idle :=
  ⟨mkState idleHeld [stalled readyCycle], .start 1, rfl, by decide, by decide, by decide, rfl⟩

theorem witness_DibitWaitsUntilReady_idle :
    ∃ (s : State) (i : Instr), i.channel = .din ∧ Live (drive i (cycle s)) s ∧
      (s.regs.st = .idle ∨ (s.regs.ov = true ∧ (cycle s).doutReady = false)) ∧
      fireCmd (cycle s) s.regs = false ∧ s.regs.st = .idle :=
  ⟨mkState idleHeld [readyCycle], .dib11, rfl, by decide, by decide, by decide, rfl⟩

theorem witness_DibitWaitsUntilReady_held :
    ∃ (s : State) (i : Instr), i.channel = .din ∧ Live (drive i (cycle s)) s ∧
      (s.regs.st = .idle ∨ (s.regs.ov = true ∧ (cycle s).doutReady = false)) ∧
      fireCmd (cycle s) s.regs = false ∧ s.regs.st = .run :=
  ⟨mkState runHeld [stalled readyCycle], .dib00, rfl, by decide, by decide, by decide, rfl⟩

theorem witness_OnlyResetRunsBeforeTheFirstReset :
    ∃ (s : State) (i : Instr), s.resetSeen = false ∧ (cycle s).rst = false ∧ i ≠ .reset ∧
      faultOf (exec i s) = some .readBeforeFirstReset :=
  ⟨powerOn standardConfig runHeld, .start 1, rfl, by decide, by decide, by decide⟩

theorem witness_BrokenOfferIsRefused :
    ∃ (s : State) (i : Instr), s.resetSeen = true ∧ (cycle s).rst = false ∧ i ≠ .reset ∧
      offersKept (drive i (cycle s)) s = false ∧ refusalOf (exec i s) = some .offerWithdrawn :=
  ⟨{ mkState idleHeld [readyCycle] with waitCmd := some 4 }, .start 3, rfl, by decide, by decide, by decide, by decide⟩

theorem witness_ErrorFlagsFollowOddCommands :
    ∃ (s t : State), step s = .next t ∧ (cycle s).rst = false ∧ acceptedCmds (newEdges s t) = [1] :=
  ⟨mkState resetValues [{ cmdCycle 1 with errClr := true }], _, rfl, by decide, by decide⟩

theorem witness_StatusOutputs :
    ∃ (s : State) (o : OutPorts), outputs s = some o ∧ o.busy = true ∧ o.cmdReady = true ∧ o.doutValid = true :=
  ⟨mkState idleHeld [readyCycle], _, rfl, by decide, by decide, by decide⟩

theorem witness_StatusOutputs_dinReady :
    ∃ (s : State) (o : OutPorts), outputs s = some o ∧ o.dinReady = true ∧ o.cmdReady = false :=
  ⟨mkState runHeld [readyCycle], _, rfl, by decide, by decide⟩

theorem witness_OutputsIgnoreTheOffers :
    ∃ p p' : Ports, p.rst = p'.rst ∧ p.doutReady = p'.doutReady ∧ p ≠ p' :=
  ⟨cmdCycle 4, dinCycle 3, by decide, by decide, by decide⟩

theorem witness_OfferedSymbolStaysUntilTransferred :
    ∃ (k : Nat) (s t : State), s.regs.ov = true ∧ NextCycles k (fun p => !p.rst && !p.doutReady) s ∧
      runSteps k s = .next t ∧ k = 2 :=
  ⟨2, mkState runHeld [stalled (dinCycle 1), stalled (dinCycle 1)], _, rfl, ⟨by decide, by decide⟩, rfl, rfl⟩

theorem resetValues_inv : RegsInv standardConfig resetValues :=
  ⟨by decide, by decide, by decide, by decide, by decide⟩

theorem runLast_inv : RegsInv standardConfig runLast :=
  ⟨by decide, by decide, by decide, by decide, by decide⟩

theorem witness_EveryStepKeepsTheRegisterInvariant :
    ∃ (s t t' : State) (i : Instr), RegsInv s.config s.regs ∧ step s = .next t ∧ exec i s = .next t' ∧
      s.regs.st = .run ∧ t.regs.st = .idle :=
  ⟨mkState runLast [dinCycle 0], _, _, .dib11, runLast_inv, rfl, rfl, by decide, by decide⟩

theorem witness_RegisterInvariantHoldsAfterReset :
    ∃ (s t : State), exec .reset s = .next t ∧ s.resetSeen = false :=
  ⟨powerOn standardConfig runHeld, _, rfl, rfl⟩

theorem witness_SymbolsAreNeitherLostNorReordered :
    ∃ (k : Nat) (s t : State), RegsInv s.config s.regs ∧ NextCycles k (fun p => !p.rst) s ∧
      runSteps k s = .next t ∧ (delivered (newEdges s t)).length = 2 :=
  ⟨3, mkState resetValues [cmdCycle 2, dinCycle 1, readyCycle], _, resetValues_inv, ⟨by decide, by decide⟩, rfl,
    by decide⟩

/-- A frame of one dibit: the command's cycle, the dibit's, and one in which the last symbol leaves. -/
def frameStart : State := mkState idleHeld [cmdCycle 2, dinCycle 0b10, readyCycle]
/-- The state right after the command. -/
def frameOpen : State := nextOr frameStart (step frameStart)
/-- The state with the frame delivered. -/
def frameDone : State := nextOr frameOpen (runSteps 2 frameOpen)

theorem witness_EvenFrameDeliversTheReferenceEncoding :
    ∃ (s s₁ t : State) (bits : List Bool) (k : Nat),
      bits.length % 2 = 0 ∧ step s = .next s₁ ∧ acceptedCmds (newEdges s s₁) = [bits.length] ∧
      NextCycles k (fun p => !p.rst) s₁ ∧ runSteps k s₁ = .next t ∧ acceptedCmds (newEdges s₁ t) = [] ∧
      acceptedDins (newEdges s₁ t) = dibitsOf bits ∧ t.regs.ov = false :=
  ⟨frameStart, frameOpen, frameDone, [true, false], 2, by decide, rfl, by decide, ⟨by decide, by decide⟩, rfl,
    by decide, by decide, by decide⟩

theorem witness_OddFrameDeliversNothing :
    ∃ (s s₁ : State) (bits : List Bool),
      bits.length % 2 = 1 ∧ step s = .next s₁ ∧ acceptedCmds (newEdges s s₁) = [bits.length] :=
  ⟨mkState idleHeld [cmdCycle 1], _, [true], by decide, rfl, by decide⟩

theorem witness_FrameLengthLaw :
    ∃ (s s₁ t : State) (w k : Nat), w % 2 = 0 ∧ step s = .next s₁ ∧ acceptedCmds (newEdges s s₁) = [w] ∧
      NextCycles k (fun p => !p.rst) s₁ ∧ runSteps k s₁ = .next t ∧ acceptedCmds (newEdges s₁ t) = [] ∧
      (acceptedDins (newEdges s₁ t)).length = w / 2 :=
  ⟨frameStart, frameOpen, frameDone, 2, 2, by decide, rfl, by decide, ⟨by decide, by decide⟩, rfl, by decide, by decide⟩

theorem witness_PhasesArePrefixSums :
    ∃ (s s₁ t : State) (w k j : Nat) (y : OutSymbol), w % 2 = 0 ∧ step s = .next s₁ ∧
      acceptedCmds (newEdges s s₁) = [w] ∧ NextCycles k (fun p => !p.rst) s₁ ∧ runSteps k s₁ = .next t ∧
      acceptedCmds (newEdges s₁ t) = [] ∧
      (delivered (newEdges s₁ t) ++ held t.config.iqTable t.regs)[j]? = some y ∧ j = 1 :=
  ⟨frameStart, frameOpen, frameDone, 2, 2, 1, _, by decide, rfl, by decide, ⟨by decide, by decide⟩, rfl, by decide, rfl,
    rfl⟩

theorem witness_FramesDoNotSeeEarlierFrames :
    ∃ (s s' t t' u : State) (w k : Nat), s.config = s'.config ∧ cycle s = cycle s' ∧
      s.inputs.tail = s'.inputs.tail ∧ w % 2 = 0 ∧ step s = .next t ∧ step s' = .next t' ∧
      acceptedCmds (newEdges s t) = [w] ∧ acceptedCmds (newEdges s' t') = [w] ∧ runSteps k t = .next u ∧ k = 2 ∧
      s.regs.phase ≠ s'.regs.phase :=
  ⟨frameStart, { frameStart with regs := resetValues }, _, _, _, 2, 2, rfl, rfl, rfl, by decide, rfl, rfl, by decide,
    by decide, rfl, rfl, by decide⟩

theorem witness_OneSymbolLeavesPerEdge :
    ∃ (s : State) (ds : List Dibit) (w next : Nat) (after : Dibit) (rest : List Ports),
      s.inputs = eagerCycles w ds next after ++ rest ∧ s.resetSeen = true ∧ s.waitCmd = none ∧ s.waitDin = none ∧
      s.regs.st = .idle ∧ w < 2 ^ s.config.lenW ∧ next < 2 ^ s.config.lenW ∧
      (w = 2 * ds.length ∨ (w % 2 = 1 ∧ ds = [])) ∧ ds.length = 2 :=
  ⟨mkState idleHeld (eagerCycles 4 [1, 2] 0xFFFF 3), [1, 2], 4, 0xFFFF, 3, [], by decide, rfl, rfl, rfl, rfl, by decide,
    by decide, by decide, rfl⟩

theorem witness_OneSymbolLeavesPerEdge_odd :
    ∃ (s : State) (ds : List Dibit) (w next : Nat) (after : Dibit) (rest : List Ports),
      s.inputs = eagerCycles w ds next after ++ rest ∧ s.resetSeen = true ∧ s.waitCmd = none ∧ s.waitDin = none ∧
      s.regs.st = .idle ∧ w < 2 ^ s.config.lenW ∧ next < 2 ^ s.config.lenW ∧
      (w = 2 * ds.length ∨ (w % 2 = 1 ∧ ds = [])) ∧ w = 0xFFFF :=
  ⟨mkState resetValues (eagerCycles 0xFFFF [] 0 3), [], 0xFFFF, 0, 3, [], by decide, rfl, rfl, rfl, rfl, by decide,
    by decide, by decide, rfl⟩

theorem witness_OffersAreTakenOnceDownstreamIsReady_cmd :
    ∃ (k w : Nat) (s t : State), runSteps k s = .next t ∧ (∃ p ∈ s.inputs.take k, p.doutReady = true) ∧
      s.regs.st = .idle ∧ NextCycles k (fun p => !p.rst && p.cmdValid && decide (p.cmdLen = w)) s ∧ k = 2 :=
  ⟨2, 4, mkState idleHeld [stalled (cmdCycle 4), cmdCycle 4], _, rfl, ⟨cmdCycle 4, by decide, by decide⟩, rfl,
    ⟨by decide, by decide⟩, rfl⟩

theorem witness_OffersAreTakenOnceDownstreamIsReady_din :
    ∃ (k : Nat) (d : Dibit) (s t : State), runSteps k s = .next t ∧
      (∃ p ∈ s.inputs.take k, p.doutReady = true) ∧ s.regs.st = .run ∧
      NextCycles k (fun p => !p.rst && p.dinValid && decide (p.dinDibit = d)) s ∧ k = 2 :=
  ⟨2, 3, mkState runHeld [stalled (dinCycle 3), dinCycle 3], _, rfl, ⟨dinCycle 3, by decide, by decide⟩, rfl,
    ⟨by decide, by decide⟩, rfl⟩

theorem witness_OffersAreTakenOnceDownstreamIsReady_dout :
    ∃ (k : Nat) (s t : State), runSteps k s = .next t ∧ (∃ p ∈ s.inputs.take k, p.doutReady = true) ∧
      s.regs.ov = true ∧ NextCycles k (fun p => !p.rst) s ∧ k = 2 :=
  ⟨2, mkState runHeld [stalled readyCycle, readyCycle], _, rfl, ⟨readyCycle, by decide, by decide⟩, rfl,
    ⟨by decide, by decide⟩, rfl⟩

theorem witness_ScriptHostIsNeverRefused :
    ∃ (h : ScriptHost) (s : State), s.resetSeen = true ∧ ScriptAgrees h s ∧ s.waitCmd = some 4 :=
  ⟨{ starts := [4], dibs := [3], errClrs := [], resets := [], doutReadys := [(0, false)] },
    { mkState idleHeld [] with waitCmd := some 4, waitDin := some 3 }, rfl,
    ⟨by intro w h; cases h; rfl, by intro d h; cases h; rfl, by decide⟩, rfl⟩

theorem witness_RunHasAResultExactlyAtItsEnd :
    ∃ (s : State) (y : RunResult), runResult s = some y ∧ y.errLen = true ∧ y.symbols = [] :=
  ⟨mkState { resetValues with errs := true } [readyCycle], _, rfl, rfl, rfl⟩

theorem witness_EndedRunTransfersNothingMore :
    ∃ (k : Nat) (s : State), runEnded s = true ∧ (∀ p ∈ s.inputs.take k, p.rst = false) ∧
      (∀ p ∈ s.inputs.take k, p.errClr = false) ∧ s.regs.errs = true ∧ k = 2 :=
  ⟨2, mkState { resetValues with errs := true } [readyCycle, stalled readyCycle, { readyCycle with rst := true }],
    by decide, by decide, by decide, rfl, rfl⟩

theorem witness_RunToEndStopsAtTheFirstEnd :
    ∃ (n : Nat) (s t : State), runToEnd n s = .next t ∧ runEnded s = false ∧ runEnded t = true :=
  ⟨9, mkState idleHeld [stalled readyCycle, readyCycle], _, rfl, by decide, by decide⟩

theorem witness_EncodeScriptEndsWithTheReferenceEncoding :
    ∃ (c : Config) (bits : List Bool) (n : Nat), bits.length < 2 ^ c.lenW ∧ bits.length / 2 + 3 ≤ n ∧
      bits.length % 2 = 0 ∧ bits ≠ [] :=
  ⟨standardConfig, [true, false], 4, by decide, by decide, by decide, by decide⟩

theorem witness_EncodeScriptComputesTheReferenceEncoding :
    ∃ (c : Config) (bits bits' : List Bool), bits.length < 2 ^ c.lenW ∧ bits.length % 2 = 0 ∧
      bits'.length < 2 ^ c.lenW ∧ bits'.length % 2 = 1 :=
  ⟨standardConfig, [true, false], [true], by decide, by decide, by decide, by decide⟩

end Sys2Proof.Tests
end

section
/-! The register invariant of R19, R26 and R28 along one edge. -/

namespace Sys2Proof.Machine

open Sys2Proof.Safety

theorem regsInv_resetValues (c : Config) : RegsInv c resetValues where
  idle_rem _ := rfl
  run_rem h := by cases h
  rem_fits := Nat.two_pow_pos _
  oph_phase := rfl
  ref_phase h := by cases h

/-- With the invariant the counter alone says whether a frame is open (R26). -/
theorem st_eq_run_of_regsInv {c : Config} {r : Regs} (hi : RegsInv c r) (h : 1 ≤ r.rem) : r.st = .run := by
  cases hs : r.st with
  | idle => have := hi.idle_rem hs; omega
  | run => rfl

theorem st_eq_idle_of_regsInv {c : Config} {r : Regs} (hi : RegsInv c r) (h : r.rem = 0) : r.st = .idle := by
  cases hs : r.st with
  | idle => rfl
  | run => have := hi.run_rem hs; omega

/-- An edge that writes none of the sequencer's registers and only drains the held symbol keeps the invariant. -/
theorem regsInv_of_drain {c : Config} {p : Ports} {r r' : Regs} (hi : RegsInv c r) (hst : r'.st = r.st)
    (hphase : r'.phase = r.phase) (hrem : r'.rem = r.rem) (hov : r'.ov = (r.ov && !fireDout p r))
    (hoph : r'.oph = r.oph) (horef : r'.oref = r.oref) : RegsInv c r' where
  idle_rem := by rw [hst, hrem]; exact hi.idle_rem
  run_rem := by rw [hst, hrem]; exact hi.run_rem
  rem_fits := by rw [hrem]; exact hi.rem_fits
  oph_phase := by rw [hoph, hphase]; exact hi.oph_phase
  ref_phase ho := by
    rw [hoph, horef]
    exact hi.ref_phase (by simp only [hov, Bool.and_eq_true] at ho; exact ho.1)

theorem regsInv_acceptStart {c : Config} {n : Nat} (p : Ports) (r : Regs) (hn : n < 2 ^ (c.lenW - 1)) :
    RegsInv c (acceptStart p n r) where
  idle_rem h := by
    by_cases h0 : n = 0
    · exact h0
    · rw [acceptStart_st, if_neg h0] at h; cases h
  run_rem h := Nat.pos_of_ne_zero fun h0 => by rw [acceptStart_rem] at h0; simp [h0] at h
  rem_fits := hn
  oph_phase := rfl
  ref_phase _ _ := rfl

/-- A dibit accepted with at least one due leaves `REM = 0` exactly where it closes the frame (R72). -/
theorem regsInv_dibStep {c : Config} {r : Regs} (p : Ports) (d : Dibit) (hi : RegsInv c r) (hrun : r.st = .run) :
    RegsInv c (dibStep c p d r) where
  idle_rem h := by
    rw [dibStep_rem, decRem_of_pos (hi.run_rem hrun) hi.rem_fits]
    by_cases h1 : r.rem = 1
    · rw [h1]
    · rw [dibStep_st, if_neg h1] at h; cases h
  run_rem h := by
    have hpos := hi.run_rem hrun
    rw [dibStep_rem, decRem_of_pos hpos hi.rem_fits]
    by_cases h1 : r.rem = 1
    · simp [h1] at h
    · omega
  rem_fits := decRem_lt c r.rem
  oph_phase := rfl
  ref_phase _ h := by cases h

theorem regsInv_acceptCmd {c : Config} {r : Regs} (p : Ports) (w : Nat) (hi : RegsInv c r) :
    RegsInv c (acceptCmd c p w r) := by
  unfold acceptCmd
  split
  · exact regsInv_of_drain (p := p) hi rfl rfl rfl rfl rfl rfl
  · exact regsInv_acceptStart p r (cmdFieldN_lt c w)

/-- Every live edge keeps the register invariant, whatever the cycle's ports carry. -/
theorem regsInv_edgeRegs {c : Config} {r : Regs} (p : Ports) (hi : RegsInv c r) : RegsInv c (edgeRegs c p r) := by
  rcases edgeRegs_cases c p r with ⟨-, h⟩ | ⟨-, hd, h⟩ | ⟨-, -, h⟩ <;> rw [h]
  · exact regsInv_acceptCmd p p.cmdLen hi
  · obtain ⟨-, -, hrun, -⟩ := (fireDin_iff p r).mp hd
    exact regsInv_dibStep p p.dinDibit hi hrun
  · exact regsInv_of_drain (p := p) hi rfl rfl rfl rfl rfl rfl

end Sys2Proof.Machine
end

section
/-! The phases and symbols of a frame, and the source's `ENC` (R3, R72, R79). -/

namespace Sys2Proof.Machine

open Sys2Proof.Safety

/-- The stored code of a dibit acts as its signed delta, modulo 8 (R36, R37). -/
theorem phaseAdd_deltaRom_toNat (k : Phase) (d : Dibit) :
    ((phaseAdd k (deltaRom d)).toNat : Int) = ((k.toNat : Int) + delta d.toNat) % 8 := by
  revert k d; decide

theorem ofInt_toNat_phase (k : Phase) : BitVec.ofInt 3 (k.toNat : Int) = k := by
  rw [BitVec.ofInt_natCast, BitVec.ofNat_toNat, BitVec.setWidth_eq]

/-- A dibit's word is its index in the source (R38, R54). -/
theorem dibitWord_toNat (b0 b1 : Bool) : (dibitWord b0 b1).toNat = dibitIndex b0 b1 := by
  revert b0 b1; decide

theorem dibitsOf_length : ∀ bits : List Bool, (dibitsOf bits).length = bits.length / 2
  | [] => rfl
  | [_] => by simp [dibitsOf]
  | _ :: _ :: rest => by simp only [dibitsOf, List.length_cons, dibitsOf_length rest]; omega

/-- The data symbols of a frame are at the phases that the loop of `ENC` reads. -/
theorem dataSymbols_phases (t : IqTable) : ∀ (phase : Int) (n : Nat) (bits : List Bool),
    (dataSymbols t phase n (dibitsOf bits)).map (·.phase.toNat) = encPhases phase bits
  | _, _, [] => rfl
  | _, _, [_] => rfl
  | phase, n, b0 :: b1 :: rest => by
    simp only [dibitsOf, dataSymbols, encPhases, dataSymbol, List.map_cons, dibitWord_toNat,
      dataSymbols_phases t _ (n - 1) rest, BitVec.toNat_ofInt]
    congr 1
    omega

theorem frameSymbols_phases (t : IqTable) (bits : List Bool) (h : bits.length % 2 = 0) :
    encIndices bits = .ok ((frameSymbols t (dibitsOf bits)).map (·.phase.toNat)) := by
  simp [encIndices, h, frameSymbols, referenceSymbol, dataSymbols_phases]

/-- Every symbol of a frame carries the table entry at its phase (R58). -/
theorem dataSymbols_iq (t : IqTable) : ∀ (phase : Int) (n : Nat) (ds : List Dibit),
    (dataSymbols t phase n ds).map (fun y => (⟨y.i, y.q⟩ : IqPoint)) =
      (dataSymbols t phase n ds).map fun y => iqRead t y.phase
  | _, _, [] => rfl
  | phase, n, d :: ds => by
    simp only [dataSymbols, List.map_cons, dataSymbols_iq t _ (n - 1) ds, dataSymbol]

/-- The frame of an even bit string is `ENC` of it (R3). -/
theorem enc_eq_frameSymbols (t : IqTable) (bits : List Bool) (h : bits.length % 2 = 0) :
    enc t bits = .ok ((frameSymbols t (dibitsOf bits)).map fun y => ⟨y.i, y.q⟩) := by
  simp only [enc, frameSymbols_phases t bits h, List.map_map, Function.comp_def, BitVec.ofNat_toNat,
    BitVec.setWidth_eq, frameSymbols, List.map_cons, dataSymbols_iq]
  rfl

theorem enc_of_odd (t : IqTable) (bits : List Bool) (h : bits.length % 2 = 1) :
    enc t bits = .error .invalidInputLength := by simp [enc, encIndices, h]

/-! ### What a transfer leaves in the holding register -/

theorem held_acceptStart (t : IqTable) (p : Ports) (n : Nat) (r : Regs) :
    held t (acceptStart p n r) = [referenceSymbol t n] := rfl

theorem held_dibStep (t : IqTable) (c : Config) (p : Ports) (d : Dibit) (r : Regs) :
    held t (dibStep c p d r) = [dataSymbol t (phaseAdd r.phase (deltaRom d)) (decide (r.rem = 1))] := rfl

theorem acceptCmd_of_even {c : Config} {p : Ports} {w : Nat} {r : Regs} (hw : w < 2 ^ c.lenW) (h : w % 2 = 0) :
    acceptCmd c p w r = acceptStart p (w / 2) r := by simp [acceptCmd, cmdFieldP, h, cmdFieldN_of_fits hw]

theorem acceptCmd_of_odd {c : Config} {p : Ports} {w : Nat} {r : Regs} (h : w % 2 = 1) :
    acceptCmd c p w r = raiseInvalidInputLength p r := by simp [acceptCmd, cmdFieldP, h, acceptStartOdd]

end Sys2Proof.Machine
end

section
/-! One edge of the script host's run, whatever its script (R64, R110). -/

namespace Sys2Proof.Machine

open Sys2Proof.Safety

@[simp] theorem delivered_append (es es' : List EdgeObs) : delivered (es ++ es') = delivered es ++ delivered es' :=
  List.filterMap_append

/-- The state after a live edge in which the host drives `p`. -/
def afterEdge (p : Ports) (s : State) : State :=
  closeEdge p { s with inputs := [p] } (edgeRegs s.config p s.regs)

@[simp] theorem afterEdge_config (p : Ports) (s : State) : (afterEdge p s).config = s.config := rfl

@[simp] theorem afterEdge_regs (p : Ports) (s : State) : (afterEdge p s).regs = edgeRegs s.config p s.regs := rfl

@[simp] theorem afterEdge_resetSeen (p : Ports) (s : State) : (afterEdge p s).resetSeen = s.resetSeen := rfl

@[simp] theorem afterEdge_trace (p : Ports) (s : State) :
    (afterEdge p s).trace = s.trace ++ [observe s.config.iqTable p s.regs] := rfl

/-- A ready downstream takes the symbol held, at every edge that is no reset edge (R80, R82). -/
theorem delivered_afterEdge {p : Ports} (s : State) (hr : p.rst = false) (hd : p.doutReady = true) :
    delivered (afterEdge p s).trace = delivered s.trace ++ held s.config.iqTable s.regs := by
  have hf : fireDout p s.regs = s.regs.ov := fireDout_of_canLoad hr (by simp [canLoad, hd])
  cases ho : s.regs.ov <;> simp [delivered, observe, held, hf, ho]

/-- A state of a script's run after the first reset: the host holds the offers it has made, and the registers meet their
invariant. -/
structure Driven (h : ScriptHost) (s : State) : Prop where
  resetSeen : s.resetSeen = true
  agrees : ScriptAgrees h s
  inv : RegsInv s.config s.regs

/-- The reset edge of a script, from any state: no transfer, so the queues stay (R103, R107). -/
theorem scriptEdge_of_reset {h : ScriptHost} {e : Nat} (s : State) (he : e ∈ h.resets) :
    scriptEdge h e s = .next (h, resetEdge { s with inputs := [scriptPorts h e s.resetSeen] }) := by
  have hr : (scriptPorts h e s.resetSeen).rst = true := by simp [scriptPorts, he]
  have hs : step { s with inputs := [scriptPorts h e s.resetSeen] } =
      .next (resetEdge { s with inputs := [scriptPorts h e s.resetSeen] }) := by
    rw [step_eq_atEdge (by simp [CmdFits, cycle, fireCmd, cmdReady, hr])]
    exact atEdge_of_rst hr
  simp [scriptEdge, hs, scriptTaken, fireCmd, fireDin, cmdReady, dinReady, hr]

/-- The script host offers again what waits (R110). -/
theorem offersKept_scriptPorts {h : ScriptHost} {s : State} (e : Nat) (hd : Driven h s) :
    offersKept (scriptPorts h e true) s = true := by
  obtain ⟨hcmd, hdin, -⟩ := hd.agrees
  have kc : offerKept s.waitCmd (scriptPorts h e true).cmdValid (scriptPorts h e true).cmdLen = true := by
    cases hw : s.waitCmd with
    | none => rfl
    | some w => obtain ⟨ws, hws⟩ := List.head?_eq_some_iff.mp (hcmd w hw); simp [scriptPorts, hws]
  have kd : offerKept s.waitDin (scriptPorts h e true).dinValid (scriptPorts h e true).dinDibit = true := by
    cases hw : s.waitDin with
    | none => rfl
    | some d => obtain ⟨ds, hds⟩ := List.head?_eq_some_iff.mp (hdin d hw); simp [scriptPorts, hds]
  simp [offersKept, kc, kd]

/-- The command a script host offers fits the port (R64). -/
theorem cmdFits_scriptPorts {h : ScriptHost} {s : State} (e : Nat) (hd : Driven h s) :
    CmdFits s.config (scriptPorts h e true) s.regs := by
  intro hf
  obtain ⟨hv, -⟩ := (fireCmd_iff _ _).mp hf
  obtain ⟨-, -, hfit⟩ := hd.agrees
  cases hs : h.starts with
  | nil => simp [scriptPorts, hs] at hv
  | cons w ws => simpa [scriptPorts, hs] using hfit w (by simp [hs])

/-- An edge of a script's run that is no reset edge is a live edge of the block. -/
theorem scriptEdge_of_driven {h : ScriptHost} {e : Nat} {s : State} (hd : Driven h s) (he : e ∉ h.resets) :
    scriptEdge h e s =
      .next (scriptTaken h (scriptPorts h e true) s.regs, afterEdge (scriptPorts h e true) s) := by
  have hd' : Driven h { s with inputs := [scriptPorts h e true] } := ⟨hd.resetSeen, hd.agrees, hd.inv⟩
  have hs : step { s with inputs := [scriptPorts h e true] } = .next (afterEdge (scriptPorts h e true) s) :=
    step_of_live ⟨hd.resetSeen, by simp [cycle, scriptPorts, he], offersKept_scriptPorts e hd'⟩
      (cmdFits_scriptPorts e hd')
  simp only [scriptEdge, hd.resetSeen] at hs ⊢
  rw [hs]

/-- The head of a queue that is offered and does not fire is the head of the queue that is left. -/
theorem head?_of_offer_left {α : Type} {q : List α} {fire : Bool} {default a : α}
    (h : (if !q.isEmpty && !fire then some (q.headD default) else none) = some a) :
    (if fire then q.tail else q).head? = some a := by
  cases fire <;> cases q <;> simp_all

/-- A word offered and not taken stays at the head of its queue, so the host can go on driving. -/
theorem driven_afterEdge {h : ScriptHost} {s : State} (e : Nat) (hd : Driven h s) :
    Driven (scriptTaken h (scriptPorts h e true) s.regs) (afterEdge (scriptPorts h e true) s) where
  resetSeen := hd.resetSeen
  inv := regsInv_edgeRegs _ hd.inv
  agrees := by
    obtain ⟨-, -, hfit⟩ := hd.agrees
    refine ⟨fun w hw => ?_, fun d hw => ?_, fun n hn => ?_⟩
    · rw [afterEdge, closeEdge_waitCmd] at hw
      exact head?_of_offer_left hw
    · rw [afterEdge, closeEdge_waitDin] at hw
      exact head?_of_offer_left hw
    · refine hfit n ?_
      cases hf : fireCmd (scriptPorts h e true) s.regs
      · simpa [scriptTaken, hf] using hn
      · exact List.mem_of_mem_tail (by simpa [scriptTaken, hf] using hn)

end Sys2Proof.Machine
end

section
/-! The run of the script `ENCODE bits` after a reset at edge 0 (R65, R114). -/

namespace Sys2Proof.Machine

open Sys2Proof.Safety

/-- The host of an `ENCODE` script after a reset line for edge 0, with these words left in its queues. -/
def encodeHost (starts : List Nat) (dibs : List Dibit) : ScriptHost :=
  { starts, dibs, errClrs := [], resets := [0], doutReadys := [] }

/-- The cycle in which it offers the heads of its queues. -/
def encodePorts (starts : List Nat) (dibs : List Dibit) : Ports :=
  { rst := false, cmdValid := !starts.isEmpty, cmdLen := starts.headD 0, dinValid := !dibs.isEmpty,
    dinDibit := dibs.headD 0, doutReady := true, errClr := false }

theorem scriptPorts_encodeHost {e : Nat} (he : 0 < e) (starts : List Nat) (dibs : List Dibit) :
    scriptPorts (encodeHost starts dibs) e true = encodePorts starts dibs := by
  simp [scriptPorts, encodeHost, encodePorts, readyFrom, Nat.ne_of_gt he]

theorem scriptHost_dibs (ds : List Dibit) :
    scriptHost (ds.map .dib) = { starts := [], dibs := ds, errClrs := [], resets := [], doutReadys := [] } := by
  induction ds with
  | nil => rfl
  | cons d ds ih => simp [scriptHost, ih]

theorem scriptHost_encodeOps (bits : List Bool) :
    scriptHost (.resetAt 0 :: encodeOps bits) =
      encodeHost [bits.length] (if bits.length % 2 = 0 then dibitsOf bits else []) := by
  by_cases heven : bits.length % 2 = 0
  · simp only [encodeOps, if_pos heven, scriptHost, scriptHost_dibs, encodeHost]
  · simp only [encodeOps, if_neg heven, scriptHost, encodeHost]

/-- `n` edges from edge `e` on end with empty queues and a quiescent block that has delivered `ys`, with `ERRS = errs`. -/
def EndsWith (h : ScriptHost) (e : Nat) (s : State) (n : Nat) (ys : List OutSymbol) (errs : Bool) : Prop :=
  ∃ t, scriptRun h e s n = .next (encodeHost [] [], t) ∧ quiescent t.regs = true ∧ delivered t.trace = ys ∧
    t.regs.errs = errs

theorem endsWith_of_edge {h h' : ScriptHost} {e n : Nat} {s t : State} {ys : List OutSymbol} {errs : Bool}
    (hs : scriptEdge h e s = .next (h', t)) (ht : EndsWith h' (e + 1) t n ys errs) :
    EndsWith h e s (n + 1) ys errs := by
  simpa [EndsWith, scriptRun, hs] using ht

variable {e : Nat} {s : State}

/-- An edge after the first reset: what is held is delivered, what fires leaves its queue, and the host goes on. -/
theorem endsWith_of_encodeEdge {starts starts' : List Nat} {dibs dibs' : List Dibit} {n : Nat}
    {ys : List OutSymbol} {errs : Bool} (he : 0 < e) (hd : Driven (encodeHost starts dibs) s)
    (hq : scriptTaken (encodeHost starts dibs) (encodePorts starts dibs) s.regs = encodeHost starts' dibs')
    (ht : Driven (encodeHost starts' dibs') (afterEdge (encodePorts starts dibs) s) →
      EndsWith (encodeHost starts' dibs') (e + 1) (afterEdge (encodePorts starts dibs) s) n ys errs) :
    EndsWith (encodeHost starts dibs) e s (n + 1) ys errs := by
  have hedge := scriptEdge_of_driven (e := e) hd (by simpa [encodeHost] using Nat.ne_of_gt he)
  have hnext := driven_afterEdge e hd
  rw [scriptPorts_encodeHost he, hq] at hedge hnext
  exact endsWith_of_edge hedge (ht hnext)

/-! ### Which of the queues' heads fires -/

theorem canLoad_encodePorts (starts : List Nat) (dibs : List Dibit) (r : Regs) :
    canLoad (encodePorts starts dibs) r = true := by simp [canLoad, encodePorts]

theorem fireCmd_encodePorts (starts : List Nat) (dibs : List Dibit) (r : Regs) :
    fireCmd (encodePorts starts dibs) r = (!starts.isEmpty && decide (r.st = .idle)) := by
  rw [fireCmd, cmdReady, canLoad_encodePorts]
  simp [encodePorts]

theorem fireDin_encodePorts (starts : List Nat) (dibs : List Dibit) (r : Regs) :
    fireDin (encodePorts starts dibs) r = (!dibs.isEmpty && decide (r.st = .run)) := by
  rw [fireDin, dinReady, canLoad_encodePorts]
  simp [encodePorts]

theorem edgeRegs_encodePorts_nil (c : Config) (r : Regs) :
    edgeRegs c (encodePorts [] []) r = quiet (encodePorts [] []) r := by
  simp [edgeRegs, dinPort, fireCmd_encodePorts, fireDin_encodePorts]

theorem edgeRegs_encodePorts_dib (c : Config) (d : Dibit) (ds : List Dibit) {r : Regs} (hrun : r.st = .run) :
    edgeRegs c (encodePorts [] (d :: ds)) r = dibStep c (encodePorts [] (d :: ds)) d r := by
  simp only [edgeRegs, dinPort, fireCmd_encodePorts, fireDin_encodePorts, hrun]
  rfl

theorem edgeRegs_encodePorts_start (c : Config) (w : Nat) (ds : List Dibit) {r : Regs} (hidle : r.st = .idle) :
    edgeRegs c (encodePorts [w] ds) r = acceptCmd c (encodePorts [w] ds) w r := by
  simp only [edgeRegs, fireCmd_encodePorts, hidle]
  rfl

theorem scriptTaken_encodeHost (starts : List Nat) (dibs : List Dibit) (r : Regs) :
    scriptTaken (encodeHost starts dibs) (encodePorts starts dibs) r =
      encodeHost (if r.st = .idle then starts.tail else starts) (if r.st = .run then dibs.tail else dibs) := by
  cases starts <;> cases dibs <;> simp [scriptTaken, encodeHost, fireCmd_encodePorts, fireDin_encodePorts]

theorem delivered_encodeEdge (starts : List Nat) (dibs : List Dibit) (s : State) :
    delivered (afterEdge (encodePorts starts dibs) s).trace =
      delivered s.trace ++ held s.config.iqTable s.regs := delivered_afterEdge s rfl rfl

/-! ### The run, from its last edge back to its first -/

theorem held_of_empty {t : IqTable} {r : Regs} (h : r.ov = false) : held t r = [] := by simp [held, h]

/-- Downstream is always ready, so an edge that forms no symbol leaves none held (R82). -/
theorem drain_encodePorts_ov (starts : List Nat) (dibs : List Dibit) (r : Regs) :
    (drain (encodePorts starts dibs) r).ov = false := by
  simp [fireDout_of_canLoad rfl (canLoad_encodePorts starts dibs r)]

/-- With no frame open and nothing to offer, one edge empties the block and the others change nothing. -/
theorem endsWith_of_idle (he : 0 < e) (hd : Driven (encodeHost [] []) s) (hidle : s.regs.st = .idle) (k : Nat) :
    EndsWith (encodeHost [] []) e s (k + 1) (delivered s.trace ++ held s.config.iqTable s.regs) s.regs.errs := by
  induction k generalizing e s with
  | zero =>
    refine endsWith_of_encodeEdge he hd (by simp [scriptTaken_encodeHost]) fun _ =>
      ⟨_, rfl, ?_, delivered_encodeEdge [] [] s, ?_⟩
    · rw [afterEdge_regs, edgeRegs_encodePorts_nil, quiescent_iff]
      exact ⟨hidle, drain_encodePorts_ov [] [] s.regs⟩
    · rw [afterEdge_regs, edgeRegs_encodePorts_nil]
      simp [encodePorts]
  | succ k ih =>
    refine endsWith_of_encodeEdge (starts' := []) (dibs' := []) he hd (by simp [scriptTaken_encodeHost])
      fun hd' => ?_
    have hregs : (afterEdge (encodePorts [] []) s).regs = quiet (encodePorts [] []) s.regs := by
      rw [afterEdge_regs, edgeRegs_encodePorts_nil]
    have hend := ih (Nat.succ_pos e) hd' (by rw [hregs]; exact hidle)
    rw [delivered_encodeEdge, hregs, held_of_empty (r := quiet _ _) (drain_encodePorts_ov [] [] s.regs)] at hend
    simpa [encodePorts] using hend

/-- The dibits of an open frame are taken one per edge, and each edge delivers the symbol formed at the edge before
(R72, R114). -/
theorem endsWith_of_dibits (ds : List Dibit) (he : 0 < e) (hd : Driven (encodeHost [] ds) s)
    (hrem : s.regs.rem = ds.length) :
    EndsWith (encodeHost [] ds) e s (ds.length + 1)
      (delivered s.trace ++ held s.config.iqTable s.regs ++
        dataSymbols s.config.iqTable (s.regs.phase.toNat : Int) ds.length ds) s.regs.errs := by
  induction ds generalizing e s with
  | nil => simpa [dataSymbols] using endsWith_of_idle he hd (st_eq_idle_of_regsInv hd.inv hrem) 0
  | cons d ds ih =>
    have hpos : 1 ≤ s.regs.rem := by rw [hrem, List.length_cons]; omega
    have hrun := st_eq_run_of_regsInv hd.inv hpos
    refine endsWith_of_encodeEdge (dibs' := ds) (starts' := []) he hd (by simp [scriptTaken_encodeHost, hrun])
      fun hd' => ?_
    have hregs : (afterEdge (encodePorts [] (d :: ds)) s).regs =
        dibStep s.config (encodePorts [] (d :: ds)) d s.regs := by
      rw [afterEdge_regs, edgeRegs_encodePorts_dib _ _ _ hrun]
    have hend := ih (Nat.succ_pos e) hd' (by
      rw [hregs, dibStep_rem, decRem_of_pos hpos hd.inv.rem_fits, hrem, List.length_cons, Nat.add_sub_cancel])
    rw [delivered_encodeEdge, hregs, held_dibStep, afterEdge_config, dibStep_phase, phaseAdd_deltaRom_toNat,
      dibStep_errs] at hend
    simpa [dataSymbols, ← phaseAdd_deltaRom_toNat, ofInt_toNat_phase, hrem, encodePorts] using hend

/-- An even command opens its frame, and the frame runs to its end (R68). -/
theorem endsWith_of_start {w : Nat} {ds : List Dibit} (he : 0 < e) (hd : Driven (encodeHost [w] ds) s)
    (hidle : s.regs.st = .idle) (heven : w % 2 = 0) (hlen : ds.length = w / 2) :
    EndsWith (encodeHost [w] ds) e s (ds.length + 2)
      (delivered s.trace ++ held s.config.iqTable s.regs ++ frameSymbols s.config.iqTable ds) s.regs.errs := by
  obtain ⟨-, -, hfits⟩ := hd.agrees
  have hfit : w < 2 ^ s.config.lenW := hfits w (by simp [encodeHost])
  refine endsWith_of_encodeEdge (dibs' := ds) (starts' := []) he hd (by simp [scriptTaken_encodeHost, hidle])
    fun hd' => ?_
  have hregs : (afterEdge (encodePorts [w] ds) s).regs = acceptStart (encodePorts [w] ds) ds.length s.regs := by
    rw [afterEdge_regs, edgeRegs_encodePorts_start _ _ _ hidle, acceptCmd_of_even hfit heven, hlen]
  have hend := endsWith_of_dibits ds (Nat.succ_pos e) hd' (by rw [hregs, acceptStart_rem])
  rw [delivered_encodeEdge, hregs, held_acceptStart, afterEdge_config, acceptStart_phase, acceptStart_errs] at hend
  simpa [frameSymbols, encodePorts] using hend

/-- An odd command raises the error and opens no frame (R69). -/
theorem endsWith_of_startOdd {w : Nat} (he : 0 < e) (hd : Driven (encodeHost [w] []) s)
    (hidle : s.regs.st = .idle) (hodd : w % 2 = 1) (k : Nat) :
    EndsWith (encodeHost [w] []) e s (k + 2) (delivered s.trace ++ held s.config.iqTable s.regs) true := by
  refine endsWith_of_encodeEdge (dibs' := []) (starts' := []) he hd (by simp [scriptTaken_encodeHost, hidle])
    fun hd' => ?_
  have hregs : (afterEdge (encodePorts [w] []) s).regs = raiseInvalidInputLength (encodePorts [w] []) s.regs := by
    rw [afterEdge_regs, edgeRegs_encodePorts_start _ _ _ hidle, acceptCmd_of_odd hodd]
  have hend := endsWith_of_idle (Nat.succ_pos e) hd' (by rw [hregs]; exact hidle) k
  rwa [delivered_encodeEdge, hregs,
    held_of_empty (r := raiseInvalidInputLength _ _) (drain_encodePorts_ov [w] [] s.regs), List.append_nil,
    raiseInvalidInputLength_errs] at hend

/-! ### From power-on -/

theorem driven_resetEdge {w : Nat} (ds : List Dibit) (s : State) (hw : w < 2 ^ s.config.lenW) :
    Driven (encodeHost [w] ds) (resetEdge s) where
  resetSeen := rfl
  agrees := ⟨fun _ h => (by cases h), fun _ h => (by cases h), by simpa [encodeHost] using hw⟩
  inv := regsInv_resetValues s.config

/-- From power-on the script's run is a reset edge and then that of its command. -/
theorem endsWith_of_powerOn {c : Config} {r : Regs} {w n : Nat} {ds : List Dibit} {ys : List OutSymbol} {errs : Bool}
    (hw : w < 2 ^ c.lenW)
    (h : ∀ s : State, s.config = c → s.regs = resetValues → delivered s.trace = [] →
      Driven (encodeHost [w] ds) s → EndsWith (encodeHost [w] ds) 1 s n ys errs) :
    EndsWith (encodeHost [w] ds) 0 (powerOn c r) (n + 1) ys errs :=
  endsWith_of_edge (scriptEdge_of_reset (powerOn c r) (by simp [encodeHost]))
    (h _ rfl rfl rfl (driven_resetEdge ds _ hw))

theorem endsWith_encode_even (c : Config) (r : Regs) (bits : List Bool) (hw : bits.length < 2 ^ c.lenW)
    (heven : bits.length % 2 = 0) :
    EndsWith (encodeHost [bits.length] (dibitsOf bits)) 0 (powerOn c r) (bits.length / 2 + 3)
      (frameSymbols c.iqTable (dibitsOf bits)) false := by
  refine endsWith_of_powerOn hw fun s hc hr htr hd => ?_
  have hlen := dibitsOf_length bits
  have hend := endsWith_of_start Nat.one_pos hd (by rw [hr]; rfl) heven hlen
  rwa [hc, hr, htr, hlen, held_of_empty rfl] at hend

theorem endsWith_encode_odd (c : Config) (r : Regs) (bits : List Bool) (hw : bits.length < 2 ^ c.lenW)
    (hodd : bits.length % 2 = 1) :
    EndsWith (encodeHost [bits.length] []) 0 (powerOn c r) (bits.length / 2 + 3) [] true := by
  refine endsWith_of_powerOn hw fun s hc hr htr hd => ?_
  have hend := endsWith_of_startOdd Nat.one_pos hd (by rw [hr]; rfl) hodd (bits.length / 2)
  rwa [hr, htr, held_of_empty rfl] at hend

/-- Settles O42: reset, then the command's edge, an edge per dibit and one that drains the block; the symbols of the frame
are `ENC(bits)`. -/
theorem encodeScriptComputesTheReferenceEncoding :
    Obligations.EncodeScriptComputesTheReferenceEncoding := by
  intro c r bits hw
  rw [scriptHost_encodeOps]
  by_cases heven : bits.length % 2 = 0
  · obtain ⟨t, hrun, hq, hys, herr⟩ := endsWith_encode_even c r bits hw heven
    rw [if_pos heven]
    refine ⟨encodeHost [] [], t, hrun, hq, rfl, rfl, ?_⟩
    rw [if_pos heven, hys]
    exact ⟨enc_eq_frameSymbols c.iqTable bits heven, herr⟩
  · have hodd : bits.length % 2 = 1 := Nat.mod_two_ne_zero.mp heven
    obtain ⟨t, hrun, hq, hys, herr⟩ := endsWith_encode_odd c r bits hw hodd
    rw [if_neg heven]
    refine ⟨encodeHost [] [], t, hrun, hq, rfl, rfl, ?_⟩
    rw [if_neg heven]
    exact ⟨enc_of_odd c.iqTable bits hodd, hys, herr⟩

end Sys2Proof.Machine
end

section
/-! What one edge adds to the trace, and what the transfers it shows say of it (R10, R51, R88). -/

namespace Sys2Proof.Machine

open Sys2Proof.Safety

theorem newEdges_of_trace {s t : State} {es : List EdgeObs} (h : t.trace = s.trace ++ es) : newEdges s t = es := by
  simp [newEdges, h]

@[simp] theorem newEdges_resetEdge (s : State) :
    newEdges s (resetEdge s) = [{ cmd := none, din := none, dout := none }] := newEdges_of_trace rfl

@[simp] theorem newEdges_closeEdge (p : Ports) (s : State) (r : Regs) :
    newEdges s (closeEdge p s r) = [observe s.config.iqTable p s.regs] := newEdges_of_trace rfl

theorem acceptedCmds_observe (t : IqTable) (p : Ports) (r : Regs) :
    acceptedCmds [observe t p r] = if fireCmd p r then [p.cmdLen] else [] := by
  cases h : fireCmd p r <;> simp [acceptedCmds, observe, h]

/-- In a cycle with `rst = 1` the step is the reset edge, from any state (R95 (1)). -/
theorem step_of_rst {s : State} (h : (cycle s).rst = true) : step s = .next (resetEdge s) := by
  rw [step_eq_atEdge (by simp [CmdFits, fireCmd, cmdReady, h]), atEdge_of_rst h]

/-- A run of one step more is a step and the run from there. -/
theorem runSteps_succ_iff {k : Nat} {s u : State} :
    runSteps (k + 1) s = .next u ↔ ∃ t, step s = .next t ∧ runSteps k t = .next u := by
  rw [runSteps]
  cases step s <;> simp

/-- An edge that shows a command accepted is a live edge at which that command fired. -/
theorem step_of_acceptedCmds {s t : State} {w : Nat} (h : step s = .next t)
    (hw : acceptedCmds (newEdges s t) = [w]) :
    Live (cycle s) s ∧ fireCmd (cycle s) s.regs = true ∧ w < 2 ^ s.config.lenW ∧
      t = closeEdge (cycle s) s (acceptCmd s.config (cycle s) w s.regs) := by
  rcases step_cases h with ⟨-, rfl⟩ | ⟨hl, hfit, rfl⟩
  · simp [acceptedCmds] at hw
  · rw [newEdges_closeEdge, acceptedCmds_observe] at hw
    cases hf : fireCmd (cycle s) s.regs with
    | false => simp [hf] at hw
    | true =>
      obtain rfl : (cycle s).cmdLen = w := by simpa [hf] using hw
      exact ⟨hl, rfl, hfit hf, by simp [edgeRegs, hf]⟩

end Sys2Proof.Machine
end

section
/-! Frames do not see earlier frames (R29). An accepted even command overwrites every register but `ERRS`, and no
edge reads `ERRS` but to write it again. So two machines that accept the same even command agree from then on in all
but `ERRS` and the trace up to the command's edge: a simulation by `withHistory`. -/

namespace Sys2Proof.Machine

open Sys2Proof.Safety

/-- The registers `r` with the sticky flag at `e`. -/
def withErrs (e : Bool) (r : Regs) : Regs := { r with errs := e }

/-- The state `s` with another past: the sticky flag at `e` and the trace `tr`. -/
def withHistory (e : Bool) (tr : List EdgeObs) (s : State) : State :=
  { s with regs := withErrs e s.regs, trace := tr }

theorem acceptCmd_withErrs (c : Config) (p : Ports) (w : Nat) (e : Bool) (r : Regs) :
    ∃ e', acceptCmd c p w (withErrs e r) = withErrs e' (acceptCmd c p w r) := by
  unfold acceptCmd
  split
  · exact ⟨true, rfl⟩
  · exact ⟨e && !p.errClr, rfl⟩

/-- No register but `ERRS` depends on `ERRS`. -/
theorem edgeRegs_withErrs (c : Config) (p : Ports) (e : Bool) (r : Regs) :
    ∃ e', edgeRegs c p (withErrs e r) = withErrs e' (edgeRegs c p r) := by
  have hcmd : fireCmd p (withErrs e r) = fireCmd p r := rfl
  have hdin : fireDin p (withErrs e r) = fireDin p r := rfl
  simp only [edgeRegs, dinPort, hcmd, hdin]
  split
  · exact acceptCmd_withErrs c p p.cmdLen e r
  · split <;> exact ⟨e && !p.errClr, rfl⟩

/-- A step from another past is the same step, with the same transfers, and leaves another past. -/
theorem step_withHistory {s t : State} (e : Bool) (tr : List EdgeObs) (h : step s = .next t) :
    ∃ e' o, t.trace = s.trace ++ [o] ∧ step (withHistory e tr s) = .next (withHistory e' (tr ++ [o]) t) := by
  rcases step_cases h with ⟨hr, rfl⟩ | ⟨hl, hfit, rfl⟩
  · exact ⟨false, _, rfl, step_of_rst (s := withHistory e tr s) hr⟩
  · obtain ⟨e', he⟩ := edgeRegs_withErrs s.config (cycle s) e s.regs
    have hstep : step (withHistory e tr s) = .next (closeEdge (cycle s) (withHistory e tr s)
        (edgeRegs s.config (cycle s) (withErrs e s.regs))) := step_of_live (s := withHistory e tr s) hl hfit
    exact ⟨e', _, rfl, by rw [hstep, he]; rfl⟩

/-- A run from another past is the same run, with the same transfers. -/
theorem runSteps_withHistory {k : Nat} {s u : State} (e : Bool) (tr : List EdgeObs) (h : runSteps k s = .next u) :
    ∃ e' es, u.trace = s.trace ++ es ∧ runSteps k (withHistory e tr s) = .next (withHistory e' (tr ++ es) u) := by
  induction k generalizing s e tr with
  | zero =>
    obtain rfl : s = u := by simpa [runSteps] using h
    exact ⟨e, [], by simp, by simp [runSteps]⟩
  | succ k ih =>
    obtain ⟨t, hs, hu⟩ := runSteps_succ_iff.mp h
    obtain ⟨e₁, o, ho, hstep⟩ := step_withHistory e tr hs
    obtain ⟨e', es, hes, hrun⟩ := ih e₁ (tr ++ [o]) hu
    exact ⟨e', o :: es, by simp [hes, ho], runSteps_succ_iff.mpr ⟨_, hstep, by simpa using hrun⟩⟩

/-- Two machines of one build that accept the same even command in the same cycle differ in their past alone (R68). -/
theorem eq_withHistory_of_start {s s' t t' : State} {w : Nat} (hc : s.config = s'.config) (hp : cycle s = cycle s')
    (hi : s.inputs.tail = s'.inputs.tail) (heven : w % 2 = 0) (h : step s = .next t) (h' : step s' = .next t')
    (hw : acceptedCmds (newEdges s t) = [w]) (hw' : acceptedCmds (newEdges s' t') = [w]) :
    t' = withHistory t'.regs.errs t'.trace t := by
  obtain ⟨⟨hs, -, -⟩, hf, hlt, rfl⟩ := step_of_acceptedCmds h hw
  obtain ⟨⟨hs', -, -⟩, hf', hlt', rfl⟩ := step_of_acceptedCmds h' hw'
  rw [acceptCmd_of_even hlt heven, acceptCmd_of_even hlt' heven]
  rw [← hp] at hf' ⊢
  simp [closeEdge, withHistory, withErrs, acceptStart, settleFlags, loadSymbol, hc, hi, hs, hs', hf, hf',
    fireDin_of_fireCmd hf, fireDin_of_fireCmd hf']

/-- Settles O37: the second machine is the first with another past, at the command's edge and after every later one. -/
theorem framesDoNotSeeEarlierFrames : Obligations.FramesDoNotSeeEarlierFrames := by
  intro s s' t t' w k hc hp hi heven h h' hw hw' u hu
  have ht' := eq_withHistory_of_start hc hp hi heven h h' hw hw'
  obtain ⟨e, es, hes, hrun⟩ := runSteps_withHistory t'.regs.errs t'.trace hu
  rw [← ht'] at hrun
  refine ⟨_, hrun, ?_, rfl, rfl, rfl, rfl⟩
  rw [newEdges_of_trace hes, newEdges_of_trace (es := es) rfl]

end Sys2Proof.Machine
end

section
/-! The register invariant, the input channels, the flags, and the cycles before the first reset. -/

namespace Sys2Proof.Machine

open Sys2Proof.Safety

/-! ### The register invariant -/

/-- Settles O30: an edge with a next state is a reset edge or a live edge, and each keeps the invariant. -/
theorem everyStepKeepsTheRegisterInvariant : Obligations.EveryStepKeepsTheRegisterInvariant := by
  constructor
  · intro s t hinv h
    rcases step_cases h with ⟨-, rfl⟩ | ⟨-, -, rfl⟩
    · exact regsInv_resetValues s.config
    · exact regsInv_edgeRegs (cycle s) hinv
  · intro i s t hinv h
    rcases exec_cases h with ⟨-, rfl⟩ | ⟨-, rfl⟩
    · exact regsInv_resetValues s.config
    · exact regsInv_edgeRegs (drive i (cycle s)) hinv

/-- Settles O31: the reset values meet the invariant in every build. -/
theorem registerInvariantHoldsAfterReset : Obligations.RegisterInvariantHoldsAfterReset := by
  refine ⟨regsInv_resetValues _, fun s t h => ?_⟩
  obtain rfl : resetEdge s = t := by simpa [exec, execReset] using h
  exact regsInv_resetValues s.config

/-! ### Which channel an edge takes from -/

theorem observe_cmd_ne_none {t : IqTable} {p : Ports} {r : Regs} (h : (observe t p r).cmd ≠ none) :
    r.st = .idle ∧ (observe t p r).din = none := by
  have hf : fireCmd p r = true := by simpa [observe] using h
  obtain ⟨-, -, hidle, -⟩ := (fireCmd_iff p r).mp hf
  exact ⟨hidle, by simp [observe, fireDin_of_fireCmd hf]⟩

theorem observe_din_ne_none {t : IqTable} {p : Ports} {r : Regs} (h : (observe t p r).din ≠ none) :
    r.st = .run ∧ (observe t p r).cmd = none := by
  have hf : fireDin p r = true := by simpa [observe] using h
  obtain ⟨-, -, hrun, -⟩ := (fireDin_iff p r).mp hf
  exact ⟨hrun, by simp [observe, fireCmd_of_fireDin hf]⟩

/-- Settles O11: a reset edge shows no transfer, and at a live edge the two channels need different sequencer states. -/
theorem commandsInIdleAndDibitsInRun : Obligations.CommandsInIdleAndDibitsInRun := by
  intro s t h
  rcases step_cases h with ⟨-, rfl⟩ | ⟨-, -, rfl⟩
  · exact ⟨_, rfl, by simp, by simp⟩
  · exact ⟨_, rfl, observe_cmd_ne_none, observe_din_ne_none⟩

/-! ### The error flags -/

/-- The error flags after an accepted command word: raised by an odd one, settled by an even one (R68, R69). -/
theorem acceptCmd_flags (c : Config) (p : Ports) (w : Nat) (r : Regs) :
    (acceptCmd c p w r).errp = decide (w % 2 = 1) ∧
      (acceptCmd c p w r).errs = (decide (w % 2 = 1) || (r.errs && !p.errClr)) := by
  by_cases hodd : w % 2 = 1
  · rw [acceptCmd_of_odd hodd]; simp [hodd]
  · simp [acceptCmd, cmdFieldP, hodd]

/-- Settles O26: only an accepted command word can raise the flags; a dibit and a quiet edge settle them. -/
theorem errorFlagsFollowOddCommands : Obligations.ErrorFlagsFollowOddCommands := by
  intro s t h h0
  rcases step_cases h with ⟨hr, -⟩ | ⟨-, -, rfl⟩
  · rw [h0] at hr; cases hr
  · rw [newEdges_closeEdge, acceptedCmds_observe, closeEdge_regs]
    rcases edgeRegs_cases s.config (cycle s) s.regs with ⟨hf, he⟩ | ⟨hf, -, he⟩ | ⟨hf, -, he⟩ <;> rw [he, hf]
    · simpa using acceptCmd_flags s.config (cycle s) (cycle s).cmdLen s.regs
    · simp
    · simp

/-! ### Before the first reset -/

/-- Only `RESET` drives `rst`. -/
theorem drive_rst {i : Instr} (hi : i ≠ .reset) (p : Ports) : (drive i p).rst = p.rst := by
  cases i with
  | reset => exact absurd rfl hi
  | _ => rfl

/-- Settles O24: every other operation is an edge with `rst = 0`, which faults before the first reset edge. -/
theorem onlyResetRunsBeforeTheFirstReset : Obligations.OnlyResetRunsBeforeTheFirstReset := by
  intro s i hs h0
  refine ⟨fun hi => ?_, resetEdge s, rfl, rfl⟩
  rw [exec_eq_atEdge, atEdge_before_reset ((drive_rst hi _).trans h0) hs]

end Sys2Proof.Machine
end

section
/-! The two read-only tables: what they hold, and that nothing writes them (R35 to R40). -/

namespace Sys2Proof.Machine

open Sys2Proof.Safety

/-! ### What every edge leaves unchanged -/

theorem step_config {s t : State} (h : step s = .next t) : t.config = s.config := by
  rcases step_cases h with ⟨-, rfl⟩ | ⟨-, -, rfl⟩
  · exact resetEdge_config s
  · exact closeEdge_config _ s _

theorem exec_config {i : Instr} {s t : State} (h : exec i s = .next t) : t.config = s.config := by
  rcases exec_cases h with ⟨-, rfl⟩ | ⟨-, rfl⟩
  · exact resetEdge_config s
  · exact closeEdge_config _ s _

theorem runSteps_config {k : Nat} {s t : State} (h : runSteps k s = .next t) : t.config = s.config := by
  induction k generalizing s with
  | zero =>
    obtain rfl : s = t := by simpa [runSteps] using h
    rfl
  | succ k ih =>
    obtain ⟨s₁, hs, ht⟩ := runSteps_succ_iff.mp h
    exact (ih ht).trans (step_config hs)

/-- Settles O6: no edge writes the configuration, and `IQROM` is read from there alone. -/
theorem nothingWritesTheTables : Obligations.NothingWritesTheTables := by
  refine ⟨fun i s t h => exec_config h, fun k s t h => ?_⟩
  have hc := runSteps_config h
  exact ⟨hc, fun a => by rw [hc]⟩

/-! ### What the tables hold -/

/-- Settles O4: the contents are those of R36, and the adder is the law `phaseAdd_deltaRom_toNat`. -/
theorem phaseAdderIsTheMathematicalModulo : Obligations.PhaseAdderIsTheMathematicalModulo :=
  ⟨rfl, rfl, phaseAdd_deltaRom_toNat⟩

theorem nearExact_cos_iqCanon : ∀ k, nearExact (exactCos k) (iqRead iqCanon k).i = true := by decide +kernel

theorem nearExact_sin_iqCanon : ∀ k, nearExact (exactSin k) (iqRead iqCanon k).q = true := by decide +kernel

theorem unitMagnitude_iqCanon : ∀ k, unitMagnitude (iqRead iqCanon k) = true := by decide +kernel

/-- Every entry of the default table is near its point (R40 b, c). -/
theorem admissibleEntry_iqCanon (k : Phase) : admissibleEntry iqCanon k = true := by
  simp only [admissibleEntry, nearExact_cos_iqCanon, nearExact_sin_iqCanon, unitMagnitude_iqCanon, Bool.and_self]

/-- The default table meets R40: entry 0 is exact, and every entry is near its point. -/
theorem admissibleTable_iqCanon : admissibleTable iqCanon = true := by
  have hzero : iqRead iqCanon 0 = ⟨b64One, b64Zero⟩ := rfl
  have hall : [0, 1, 2, 3, 4, 5, 6, 7].all (admissibleEntry iqCanon) = true :=
    List.all_eq_true.mpr fun k _ => admissibleEntry_iqCanon k
  rw [admissibleTable, decide_eq_true hzero, hall, Bool.and_self]

/-- Settles O5: the patterns are read off the table, and it is admissible entry by entry. -/
theorem defaultIqTableIsAdmissible : Obligations.DefaultIqTableIsAdmissible :=
  ⟨rfl, admissibleTable_iqCanon⟩

end Sys2Proof.Machine
end

section
/-! Conservation of symbols (R46, R68, R69, R72, R82). One edge: where a symbol is loaded the held one leaves, and
elsewhere the holding register only drains; either way what is held and what the edge's transfers form is what it
delivers and what is then held. A run is such edges one after another. -/

namespace Sys2Proof.Machine

open Sys2Proof.Safety

/-! ### What one edge forms -/

theorem formedSymbols_cons_start {e : EdgeObs} {w : Nat} (t : IqTable) (phase : Int) (n : Nat) (es : List EdgeObs)
    (hc : e.cmd = some w) (heven : w % 2 = 0) :
    formedSymbols t phase n (e :: es) = referenceSymbol t (w / 2) :: formedSymbols t 0 (w / 2) es := by
  simp [formedSymbols, hc, heven]

theorem formedSymbols_cons_startOdd {e : EdgeObs} {w : Nat} (t : IqTable) (phase : Int) (n : Nat) (es : List EdgeObs)
    (hc : e.cmd = some w) (hodd : w % 2 = 1) :
    formedSymbols t phase n (e :: es) = formedSymbols t phase n es := by
  simp [formedSymbols, hc, hodd]

/-- A dibit forms the data symbol that `DIBSTEP` loads (R72). -/
theorem formedSymbols_cons_dibit {e : EdgeObs} {d : Dibit} (t : IqTable) (phase : Phase) (n : Nat)
    (es : List EdgeObs) (hc : e.cmd = none) (hd : e.din = some d) :
    formedSymbols t (phase.toNat : Int) n (e :: es) =
      dataSymbol t (phaseAdd phase (deltaRom d)) (decide (n = 1)) ::
        formedSymbols t ((phaseAdd phase (deltaRom d)).toNat : Int) (n - 1) es := by
  simp only [formedSymbols, hc, hd, ← phaseAdd_deltaRom_toNat, ofInt_toNat_phase]

theorem formedSymbols_cons_quiet {e : EdgeObs} (t : IqTable) (phase : Int) (n : Nat) (es : List EdgeObs)
    (hc : e.cmd = none) (hd : e.din = none) :
    formedSymbols t phase n (e :: es) = formedSymbols t phase n es := by
  simp [formedSymbols, hc, hd]

/-! ### What one edge delivers -/

/-- Where a symbol may be loaded, the symbol held is delivered (R80, R82). -/
theorem delivered_observe_of_canLoad {p : Ports} {r : Regs} (t : IqTable) (h0 : p.rst = false)
    (hl : canLoad p r = true) : delivered [observe t p r] = held t r := by
  have hf := fireDout_of_canLoad h0 hl
  cases ho : r.ov <;> simp [delivered, observe, held, hf, ho]

/-- A drain keeps the symbol held or delivers it (R82). -/
theorem delivered_observe_append_held_drain (t : IqTable) (p : Ports) (r : Regs) :
    delivered [observe t p r] ++ held t (drain p r) = held t r := by
  cases hf : fireDout p r with
  | false => simp [delivered, observe, held, hf, heldSymbol]
  | true =>
    obtain ⟨-, ho, -⟩ := (fireDout_iff p r).mp hf
    simp [delivered, observe, held, hf, ho]

/-! ### Conservation -/

/-- Conservation at one live edge: the transfers that follow, `es`, form the same symbols on both sides. -/
theorem held_append_formedSymbols_observe {c : Config} {p : Ports} {r : Regs} (t : IqTable) (es : List EdgeObs)
    (hinv : RegsInv c r) (hfit : CmdFits c p r) :
    held t r ++ formedSymbols t (r.phase.toNat : Int) r.rem (observe t p r :: es) =
      delivered [observe t p r] ++ (held t (edgeRegs c p r) ++
        formedSymbols t ((edgeRegs c p r).phase.toNat : Int) (edgeRegs c p r).rem es) := by
  have hdrain := delivered_observe_append_held_drain t p r
  rcases edgeRegs_cases c p r with ⟨hf, he⟩ | ⟨hf, hd, he⟩ | ⟨hf, hd, he⟩ <;> rw [he]
  · have hcmd : (observe t p r).cmd = some p.cmdLen := by simp [observe, hf]
    obtain ⟨-, h0, -, hl⟩ := (fireCmd_iff p r).mp hf
    rcases Nat.mod_two_eq_zero_or_one p.cmdLen with heven | hodd
    · rw [acceptCmd_of_even (hfit hf) heven, held_acceptStart, formedSymbols_cons_start t _ _ es hcmd heven,
        delivered_observe_of_canLoad t h0 hl]
      rfl
    · rw [acceptCmd_of_odd hodd, formedSymbols_cons_startOdd t _ _ es hcmd hodd, ← hdrain, List.append_assoc]
      rfl
  · have hcmd : (observe t p r).cmd = none := by simp [observe, hf]
    have hdin : (observe t p r).din = some p.dinDibit := by simp [observe, hd]
    obtain ⟨-, h0, hrun, hl⟩ := (fireDin_iff p r).mp hd
    rw [formedSymbols_cons_dibit t r.phase r.rem es hcmd hdin, held_dibStep, dibStep_phase, dibStep_rem,
      decRem_of_pos (hinv.run_rem hrun) hinv.rem_fits, delivered_observe_of_canLoad t h0 hl]
    rfl
  · have hcmd : (observe t p r).cmd = none := by simp [observe, hf]
    have hdin : (observe t p r).din = none := by simp [observe, hd]
    rw [formedSymbols_cons_quiet t _ _ es hcmd hdin, ← hdrain, List.append_assoc]
    rfl

/-! ### Runs -/

/-- The first of the listed cycles is the coming one. -/
theorem cycle_of_nextCycles {k : Nat} {q : Ports → Bool} {s : State} (h : NextCycles (k + 1) q s) :
    q (cycle s) = true := by
  obtain ⟨hlen, hq⟩ := h
  cases hi : s.inputs with
  | nil => simp [hi] at hlen
  | cons p ps => simpa [cycle, hi] using hq p (by simp [hi])

/-- The other listed cycles are those of every state with the rest of the schedule. -/
theorem nextCycles_tail {k : Nat} {q : Ports → Bool} {s t : State} (h : NextCycles (k + 1) q s)
    (ht : t.inputs = s.inputs.tail) : NextCycles k q t := by
  obtain ⟨hlen, hq⟩ := h
  cases hi : s.inputs with
  | nil => simp [hi] at hlen
  | cons p ps =>
    rw [hi, List.tail_cons] at ht
    refine ⟨by simpa [hi, ht] using hlen, fun x hx => hq x ?_⟩
    rw [hi, List.take_succ_cons]
    exact List.mem_cons_of_mem p (ht ▸ hx)

/-- A run shows its first edge's transfers and then those of the run from there. -/
theorem newEdges_of_step_runSteps {k : Nat} {s t u : State} (hs : step s = .next t) (hu : runSteps k t = .next u) :
    newEdges s u = newEdges s t ++ newEdges t u := by
  obtain ⟨-, o, ho, -⟩ := step_withHistory s.regs.errs s.trace hs
  obtain ⟨-, es, hes, -⟩ := runSteps_withHistory t.regs.errs t.trace hu
  rw [newEdges_of_trace ho, newEdges_of_trace hes]
  exact newEdges_of_trace (by rw [hes, ho, List.append_assoc])

/-- A step in a cycle with `rst = 0` is the live edge of the cycle's ports. -/
theorem step_of_no_rst {s t : State} (h0 : (cycle s).rst = false) (h : step s = .next t) :
    Live (cycle s) s ∧ CmdFits s.config (cycle s) s.regs ∧
      t = closeEdge (cycle s) s (edgeRegs s.config (cycle s) s.regs) := by
  rcases step_cases h with ⟨hr, -⟩ | hlive
  · rw [h0] at hr; cases hr
  · exact hlive

/-- Settles O32, by induction on the run: each edge conserves symbols and hands the invariant on. -/
theorem symbolsAreNeitherLostNorReordered : Obligations.SymbolsAreNeitherLostNorReordered := by
  intro k s u hinv hcycles h
  induction k generalizing s with
  | zero =>
    obtain rfl : s = u := by simpa [runSteps] using h
    simp [newEdges, formedSymbols, delivered]
  | succ k ih =>
    obtain ⟨t, hs, hu⟩ := runSteps_succ_iff.mp h
    have h0 : (cycle s).rst = false := by simpa using cycle_of_nextCycles hcycles
    obtain ⟨-, hfit, ht⟩ := step_of_no_rst h0 hs
    have hedge : newEdges s t = [observe s.config.iqTable (cycle s) s.regs] := by rw [ht, newEdges_closeEdge]
    have hinv' : RegsInv t.config t.regs := by rw [ht]; exact regsInv_edgeRegs (cycle s) hinv
    have hrest : held s.config.iqTable t.regs ++
          formedSymbols s.config.iqTable (t.regs.phase.toNat : Int) t.regs.rem (newEdges t u) =
        delivered (newEdges t u) ++ held u.config.iqTable u.regs := by
      rw [← step_config hs]
      exact ih t hinv' (nextCycles_tail hcycles (by rw [ht]; rfl)) hu
    have hregs : t.regs = edgeRegs s.config (cycle s) s.regs := by rw [ht, closeEdge_regs]
    rw [newEdges_of_step_runSteps hs hu, hedge, List.singleton_append,
      held_append_formedSymbols_observe s.config.iqTable (newEdges t u) hinv hfit, ← hregs, hrest,
      ← List.append_assoc, ← delivered_append, List.singleton_append]

end Sys2Proof.Machine
end

section
/-! Decoding and encoding of the input words (R52 to R56, R66). -/

namespace Sys2Proof.Machine

theorem decode_cmd_of_even {c : Config} {w : Nat} (hw : w < 2 ^ c.lenW) (heven : w % 2 = 0) :
    decode c .cmd w = .ok (.start (w / 2)) := by
  simp [decode, decodeCmd, hw, cmdFieldP, heven, cmdFieldN_of_fits hw]

theorem decode_cmd_of_odd {c : Config} {w : Nat} (hw : w < 2 ^ c.lenW) (hodd : w % 2 = 1) :
    decode c .cmd w = .ok (.startOdd (w / 2)) := by
  simp [decode, decodeCmd, hw, cmdFieldP, hodd, cmdFieldN_of_fits hw]

/-- Settles O1: a command word fits its wires, and its parity and its half are what was encoded; the words of the
other operations are literals. -/
theorem decodeOfEncodeIsTheOperation : Obligations.DecodeOfEncodeIsTheOperation := by
  intro c i hc hi
  cases i with
  | start n =>
    have h := decode_cmd_of_even (Laws.EncodeFits.start n c hc hi) (Nat.mul_mod_right 2 n)
    rwa [encode, Nat.mul_div_cancel_left n Nat.two_pos] at h
  | startOdd n =>
    have h := decode_cmd_of_odd (Laws.EncodeFits.startOdd n c hc hi) (Nat.mul_add_mod 2 n 1)
    have hhalf : encode (.startOdd n) / 2 = n := by simp only [encode]; omega
    rwa [hhalf] at h
  | _ => rfl

/-- Half of a word that fits `cmd_len` fits the field `N` (R52). -/
theorem half_lt_of_fits {c : Config} {w : Nat} (hw : w < 2 ^ c.lenW) : w / 2 < 2 ^ (c.lenW - 1) :=
  cmdFieldN_of_fits hw ▸ cmdFieldN_lt c w

/-- Settles O2: a command word selects by its parity; the four dibits and the two control inputs are checked word by
word. -/
theorem everyChannelWordSelectsOneOperation : Obligations.EveryChannelWordSelectsOneOperation := by
  intro c _
  refine ⟨fun w hw => ?_, fun w hw => ?_, fun ch i h => ?_⟩
  · have hfit := half_lt_of_fits hw
    rcases Nat.mod_two_eq_zero_or_one w with heven | hodd
    · exact ⟨_, decode_cmd_of_even hw heven, by simp [heven], decide_eq_true hfit, rfl,
        Nat.mul_div_cancel' (Nat.dvd_of_mod_eq_zero heven)⟩
    · exact ⟨_, decode_cmd_of_odd hw hodd, by simp [hodd], decide_eq_true hfit, rfl,
        by simp only [encode]; omega⟩
  · obtain rfl | rfl | rfl | rfl : w = 0 ∨ w = 1 ∨ w = 2 ∨ w = 3 := by omega
    all_goals exact ⟨_, rfl, by decide, rfl, rfl⟩
  · obtain ⟨rfl, rfl⟩ | ⟨rfl, rfl⟩ : (ch = .errClr ∧ i = .errclr) ∨ (ch = .rst ∧ i = .reset) := by simpa using h
    all_goals exact ⟨rfl, rfl⟩

/-- Settles O3: each word is the encoding of an operation well formed for `LEN_W = 16`. -/
theorem opcodeTableWordsDecode : Obligations.OpcodeTableWordsDecode := by
  have back : ∀ i : Instr, i.wf standardConfig = true → decode standardConfig i.channel (encode i) = .ok i :=
    fun i hi => decodeOfEncodeIsTheOperation standardConfig i rfl hi
  exact ⟨back (.start 2) rfl, back (.start 0x7FFF) rfl, back (.startOdd 1) rfl, back .dib00 rfl, back .dib01 rfl,
    back .dib10 rfl, back .dib11 rfl, back .errclr rfl, back .reset rfl⟩

end Sys2Proof.Machine
end

section
/-! What is read of the payloads: nothing outside a transfer (R51, R62). -/

namespace Sys2Proof.Machine

open Sys2Proof.Safety

/-- The cycle `p` with other payloads on `cmd_len` and `din_dibit`. -/
def withPayloads (w : Nat) (d : Dibit) (p : Ports) : Ports := { p with cmdLen := w, dinDibit := d }

@[simp] theorem fireCmd_withPayloads (w : Nat) (d : Dibit) (p : Ports) (r : Regs) :
    fireCmd (withPayloads w d p) r = fireCmd p r := rfl

@[simp] theorem fireDin_withPayloads (w : Nat) (d : Dibit) (p : Ports) (r : Regs) :
    fireDin (withPayloads w d p) r = fireDin p r := rfl

@[simp] theorem fireDout_withPayloads (w : Nat) (d : Dibit) (p : Ports) (r : Regs) :
    fireDout (withPayloads w d p) r = fireDout p r := rfl

section
variable {w : Nat} {d : Dibit} {p : Ports} {r : Regs}
  (hcmd : fireCmd p r = true → p.cmdLen = w) (hdin : fireDin p r = true → p.dinDibit = d)
include hcmd hdin

/-- The registers after a live edge do not depend on a payload that is not transferred. -/
theorem edgeRegs_withPayloads (c : Config) : edgeRegs c (withPayloads w d p) r = edgeRegs c p r := by
  rcases edgeRegs_cases c p r with ⟨hf, he⟩ | ⟨hf, hd, he⟩ | ⟨hf, hd, he⟩ <;> rw [he]
  · obtain rfl := hcmd hf
    simp only [edgeRegs, fireCmd_withPayloads, hf]; rfl
  · obtain rfl := hdin hd
    simp only [edgeRegs, dinPort, fireCmd_withPayloads, fireDin_withPayloads, hf, hd]; rfl
  · simp only [edgeRegs, dinPort, fireCmd_withPayloads, fireDin_withPayloads, hf, hd]; rfl

/-- An edge shows the payloads that are transferred and no other. -/
theorem observe_withPayloads (t : IqTable) : observe t (withPayloads w d p) r = observe t p r := by
  have hc : (if fireCmd p r then some w else none) = if fireCmd p r then some p.cmdLen else none :=
    ite_congr rfl (fun hf => by rw [hcmd hf]) fun _ => rfl
  have hd : (if fireDin p r then some d else none) = if fireDin p r then some p.dinDibit else none :=
    ite_congr rfl (fun hf => by rw [hdin hf]) fun _ => rfl
  simp only [observe, fireCmd_withPayloads, fireDin_withPayloads, fireDout_withPayloads, ← hc, ← hd]
  rfl

end

/-- Settles O12: both cycles have one `rst`, and a live edge's registers and transfers are the same for both. -/
theorem payloadsOutsideATransferAreNotRead : Obligations.PayloadsOutsideATransferAreNotRead := by
  intro s t t' p p' rest hp hcmd hdin h h'
  obtain ⟨w, d, rfl⟩ : ∃ w d, p' = withPayloads w d p := ⟨_, _, hp.symm⟩
  rcases step_cases h with ⟨hr, rfl⟩ | ⟨⟨-, hr, -⟩, -, rfl⟩
  · have hrst := step_of_rst (s := { s with inputs := withPayloads w d p :: rest }) hr
    obtain rfl : resetEdge _ = t' := by simpa [hrst] using h'
    exact ⟨rfl, rfl⟩
  · obtain ⟨-, -, rfl⟩ := step_of_no_rst (s := { s with inputs := withPayloads w d p :: rest }) hr h'
    exact ⟨(edgeRegs_withPayloads hcmd hdin s.config).symm,
      congrArg (s.trace ++ [·]) (observe_withPayloads hcmd hdin s.config.iqTable).symm⟩

end Sys2Proof.Machine
end

section
/-! The script host: what `ENCODE` spells, and that no edge of a script is refused (R64, R65, R110). -/

namespace Sys2Proof.Machine

open Sys2Proof.Safety

/-- Settles O40: a reset line in front of the script leaves both queues as they are, and with it they are known. -/
theorem encodeSpellsItsFrame : Obligations.EncodeSpellsItsFrame := by
  intro bits
  have hhost := scriptHost_encodeOps bits
  exact ⟨congrArg ScriptHost.starts hhost, congrArg ScriptHost.dibs hhost, dibitsOf_length bits⟩

section
variable {h : ScriptHost} {s : State}

/-- The host's duties speak of no register, so they may be read at the reset values, which meet the invariant. -/
theorem driven_with_resetValues (hs : s.resetSeen = true) (ha : ScriptAgrees h s) :
    Driven h { s with regs := resetValues } := ⟨hs, ha, regsInv_resetValues s.config⟩

/-- A command that fires from any registers fires from the reset values. -/
theorem fireCmd_resetValues {p : Ports} {r : Regs} (hf : fireCmd p r = true) : fireCmd p resetValues = true := by
  obtain ⟨hv, h0, -, -⟩ := (fireCmd_iff p r).mp hf
  exact (fireCmd_iff p resetValues).mpr ⟨hv, h0, rfl, rfl⟩

/-- An edge of a script that is no reset edge is a live edge, whatever the registers hold. -/
theorem scriptEdge_of_agrees {e : Nat} (hs : s.resetSeen = true) (ha : ScriptAgrees h s) (he : e ∉ h.resets) :
    scriptEdge h e s =
      .next (scriptTaken h (scriptPorts h e true) s.regs, afterEdge (scriptPorts h e true) s) := by
  have hd := driven_with_resetValues hs ha
  have hkept : offersKept (scriptPorts h e true) { s with regs := resetValues } = true := offersKept_scriptPorts e hd
  have hlive : Live (scriptPorts h e true) s := ⟨hs, by simp [scriptPorts, he], hkept⟩
  have hfit : CmdFits s.config (scriptPorts h e true) s.regs :=
    fun hf => cmdFits_scriptPorts (s := { s with regs := resetValues }) e hd (fireCmd_resetValues hf)
  have hstep : step { s with inputs := [scriptPorts h e true] } = .next (afterEdge (scriptPorts h e true) s) :=
    step_of_live (s := { s with inputs := [scriptPorts h e true] }) hlive hfit
  simp only [scriptEdge, hs] at hstep ⊢
  rw [hstep]

/-- The host only removes `START` lines. -/
theorem mem_starts_of_mem_scriptTaken {p : Ports} {r : Regs} {n : Nat} (hn : n ∈ (scriptTaken h p r).starts) :
    n ∈ h.starts := by
  simp only [scriptTaken] at hn
  split at hn
  · exact List.mem_of_mem_tail hn
  · exact hn

/-- What was offered and not taken is still the head of its queue after the edge. -/
theorem scriptAgrees_afterEdge (e : Nat) (ha : ScriptAgrees h s) :
    ScriptAgrees (scriptTaken h (scriptPorts h e true) s.regs) (afterEdge (scriptPorts h e true) s) := by
  obtain ⟨-, -, hfit⟩ := ha
  exact ⟨fun _ hw => head?_of_offer_left hw, fun _ hd => head?_of_offer_left hd,
    fun n hn => hfit n (mem_starts_of_mem_scriptTaken hn)⟩

/-- After a reset edge no offer is on record (R110), and the build is the same. -/
theorem scriptAgrees_resetEdge (ha : ScriptAgrees h s) : ScriptAgrees h (resetEdge s) := by
  obtain ⟨-, -, hfit⟩ := ha
  exact ⟨fun _ hw => (by cases hw), fun _ hd => (by cases hd), hfit⟩

end

/-- Settles O41: the edge is a reset edge or a live one, and after each the host holds what it has offered. -/
theorem scriptHostIsNeverRefused : Obligations.ScriptHostIsNeverRefused := by
  intro h e s hs ha
  by_cases he : e ∈ h.resets
  · exact ⟨_, _, scriptEdge_of_reset s he, rfl,
      scriptAgrees_resetEdge (s := { s with inputs := [scriptPorts h e s.resetSeen] }) ha⟩
  · exact ⟨_, _, scriptEdge_of_agrees hs ha he, hs, scriptAgrees_afterEdge e ha⟩

end Sys2Proof.Machine
end

section
/-! The symbols of one frame (R68 to R72). Conservation of symbols over the run after an even command names what is
delivered and held: the reference symbol and one data symbol per dibit. How many dibits there are is the count of
`REM`, which falls by one at each. -/

namespace Sys2Proof.Machine

open Sys2Proof.Safety

/-! ### The data symbols of a list of dibits -/

theorem dataSymbols_length (t : IqTable) (phase : Int) (n : Nat) (ds : List Dibit) :
    (dataSymbols t phase n ds).length = ds.length := by
  induction ds generalizing phase n with
  | nil => rfl
  | cons d ds ih => simp [dataSymbols, ih]

/-- No data symbol is marked as reference (R72). -/
theorem dataSymbols_ref (t : IqTable) (phase : Int) (n : Nat) (ds : List Dibit) :
    (dataSymbols t phase n ds).map (·.ref) = List.replicate ds.length false := by
  induction ds generalizing phase n with
  | nil => rfl
  | cons d ds ih => simp [dataSymbols, dataSymbol, List.replicate_succ, ih]

/-- With `n` dibits due the `n`-th data symbol is marked last, and no other (R72). -/
theorem dataSymbols_last (t : IqTable) (phase : Int) (n : Nat) (ds : List Dibit) :
    (dataSymbols t phase n ds).map (·.last) = (List.range ds.length).map fun m => decide (m + 1 = n) := by
  induction ds generalizing phase n with
  | nil => rfl
  | cons d ds ih =>
    have hfirst : decide (n = 1) = decide (0 + 1 = n) := decide_eq_decide.mpr (by omega)
    have hrest : ∀ m, decide (m + 1 = n - 1) = decide (m + 1 + 1 = n) := fun m => decide_eq_decide.mpr (by omega)
    simp [dataSymbols, dataSymbol, List.range_succ_eq_map, Function.comp_def, ih, hfirst, hrest]

/-! ### A stretch of a trace with no command -/

/-- No command is accepted over two stretches of a trace exactly when none is over either. -/
theorem acceptedCmds_append_eq_nil {es es' : List EdgeObs} :
    acceptedCmds (es ++ es') = [] ↔ acceptedCmds es = [] ∧ acceptedCmds es' = [] := by
  simp [acceptedCmds]

theorem acceptedDins_append (es es' : List EdgeObs) :
    acceptedDins (es ++ es') = acceptedDins es ++ acceptedDins es' := List.filterMap_append

theorem acceptedDins_observe (t : IqTable) (p : Ports) (r : Regs) :
    acceptedDins [observe t p r] = if fireDin p r then [p.dinDibit] else [] := by
  cases h : fireDin p r <;> simp [acceptedDins, observe, h]

/-- Edges that accept no command form the data symbols of the dibits they accept (R72). -/
theorem formedSymbols_of_no_cmd (t : IqTable) (phase : Int) (n : Nat) {es : List EdgeObs}
    (h : acceptedCmds es = []) : formedSymbols t phase n es = dataSymbols t phase n (acceptedDins es) := by
  induction es generalizing phase n with
  | nil => rfl
  | cons e es ih =>
    obtain ⟨he, hes⟩ := acceptedCmds_append_eq_nil (es := [e]).mp h
    have hcmd : e.cmd = none := by simpa [acceptedCmds] using he
    cases hdin : e.din with
    | none => rw [formedSymbols_cons_quiet t phase n es hcmd hdin, ih phase n hes]; simp [acceptedDins, hdin]
    | some d => simp [formedSymbols, hcmd, hdin, ih _ _ hes, acceptedDins, dataSymbols]

/-! ### The count of dibits due -/

/-- At a live edge that accepts no command `REM` falls by the number of dibits accepted (R72, R82). -/
theorem edgeRegs_rem_of_no_cmd {c : Config} {p : Ports} {r : Regs} (t : IqTable) (hinv : RegsInv c r)
    (h : acceptedCmds [observe t p r] = []) :
    (acceptedDins [observe t p r]).length + (edgeRegs c p r).rem = r.rem := by
  rw [acceptedDins_observe]
  rcases edgeRegs_cases c p r with ⟨hf, -⟩ | ⟨-, hd, he⟩ | ⟨-, hd, he⟩
  · simp [acceptedCmds_observe, hf] at h
  · obtain ⟨-, -, hrun, -⟩ := (fireDin_iff p r).mp hd
    have hpos := hinv.run_rem hrun
    rw [he, dibStep_rem, decRem_of_pos hpos hinv.rem_fits, if_pos hd, List.length_singleton]
    omega
  · simp [he, hd]

/-- Over a run with no reset and no command `REM` falls by the number of dibits accepted. -/
theorem runSteps_rem_of_no_cmd {k : Nat} {s u : State} (hinv : RegsInv s.config s.regs)
    (hcycles : NextCycles k (fun p => !p.rst) s) (h : runSteps k s = .next u)
    (hcmds : acceptedCmds (newEdges s u) = []) :
    (acceptedDins (newEdges s u)).length + u.regs.rem = s.regs.rem := by
  induction k generalizing s with
  | zero =>
    obtain rfl : s = u := by simpa [runSteps] using h
    simp [newEdges, acceptedDins]
  | succ k ih =>
    obtain ⟨t, hs, hu⟩ := runSteps_succ_iff.mp h
    rw [newEdges_of_step_runSteps hs hu] at hcmds ⊢
    obtain ⟨hcmd, hcmds'⟩ := acceptedCmds_append_eq_nil.mp hcmds
    have h0 : (cycle s).rst = false := by simpa using cycle_of_nextCycles hcycles
    obtain ⟨-, -, rfl⟩ := step_of_no_rst h0 hs
    rw [newEdges_closeEdge] at hcmd
    have hedge := edgeRegs_rem_of_no_cmd s.config.iqTable hinv hcmd
    have hrest := ih (regsInv_edgeRegs (cycle s) hinv) (nextCycles_tail hcycles rfl) hu hcmds'
    rw [closeEdge_regs] at hrest
    rw [acceptedDins_append, newEdges_closeEdge, List.length_append, Nat.add_assoc, hrest, hedge]

/-! ### The frame an even command opens -/

/-- A step that accepts an even command of `w` bits opens a frame of `w / 2` dibits, whatever the registers held (R68). -/
theorem step_of_even_cmd {s t : State} {w : Nat} (heven : w % 2 = 0) (h : step s = .next t)
    (hw : acceptedCmds (newEdges s t) = [w]) :
    t.regs = acceptStart (cycle s) (w / 2) s.regs ∧ RegsInv t.config t.regs := by
  obtain ⟨-, -, hlt, rfl⟩ := step_of_acceptedCmds h hw
  have hregs := acceptCmd_of_even (p := cycle s) (r := s.regs) hlt heven
  exact ⟨hregs, hregs ▸ regsInv_acceptStart (cycle s) s.regs (half_lt_of_fits hlt)⟩

section
variable {s s₁ t : State} {w k : Nat} (heven : w % 2 = 0) (hs : step s = .next s₁)
  (hw : acceptedCmds (newEdges s s₁) = [w]) (hcycles : NextCycles k (fun p => !p.rst) s₁)
  (ht : runSteps k s₁ = .next t) (hcmds : acceptedCmds (newEdges s₁ t) = [])
include heven hs hw hcycles ht hcmds

/-- A frame accepts at most the dibits its command announces (R70). -/
theorem acceptedDins_length_le_of_frame : (acceptedDins (newEdges s₁ t)).length ≤ w / 2 := by
  obtain ⟨hregs, hinv⟩ := step_of_even_cmd heven hs hw
  have hrem := runSteps_rem_of_no_cmd hinv hcycles ht hcmds
  rw [hregs, acceptStart_rem] at hrem
  omega

/-- A frame makes its reference symbol and then a data symbol per dibit accepted, and these are delivered or held
(R68, R72, R46). -/
theorem symbols_of_frame :
    delivered (newEdges s₁ t) ++ held t.config.iqTable t.regs =
      referenceSymbol s₁.config.iqTable (w / 2) ::
        dataSymbols s₁.config.iqTable 0 (w / 2) (acceptedDins (newEdges s₁ t)) := by
  obtain ⟨hregs, hinv⟩ := step_of_even_cmd heven hs hw
  rw [← symbolsAreNeitherLostNorReordered k s₁ t hinv hcycles ht, formedSymbols_of_no_cmd _ _ _ hcmds, hregs,
    held_acceptStart]
  rfl

end

/-- Settles O35: the marks are those of the frame's symbols, and the count of dibits due bounds the dibits. -/
theorem frameLengthLaw : Obligations.FrameLengthLaw := by
  intro s s₁ t w k heven hs hw hcycles ht hcmds
  dsimp only
  rw [symbols_of_frame heven hs hw hcycles ht hcmds]
  refine ⟨acceptedDins_length_le_of_frame heven hs hw hcycles ht hcmds, ?_, ?_, ?_⟩
  · rw [List.length_cons, dataSymbols_length]
  · rw [List.map_cons, dataSymbols_ref]; rfl
  · have hzero : decide (w / 2 = 0) = decide (0 = w / 2) := decide_eq_decide.mpr eq_comm
    rw [List.map_cons, dataSymbols_last, List.range_succ_eq_map, List.map_cons, List.map_map]
    exact List.cons_eq_cons.mpr ⟨hzero, rfl⟩

end Sys2Proof.Machine
end

section
/-! The command operations at one edge: accepted (R68, R69), or waiting (R67). -/

namespace Sys2Proof.Machine

open Sys2Proof.Safety

theorem canLoad_iff (p : Ports) (r : Regs) : canLoad p r = true ↔ r.ov = false ∨ p.doutReady = true := by
  simp [canLoad]

/-- An operation in a live cycle closes the edge of the cycle that offers it. -/
theorem exec_of_live {i : Instr} {s : State} (h : Live (drive i (cycle s)) s) :
    exec i s = .next (closeEdge (drive i (cycle s)) s (edgeRegs s.config (drive i (cycle s)) s.regs)) := by
  rw [exec_eq_atEdge, atEdge_of_live h]

/-- An operation of the `cmd` channel offers its word there and drives nothing else (R51). -/
theorem drive_of_channel_cmd {i : Instr} (h : i.channel = .cmd) (p : Ports) : drive i p = offerCmd (encode i) p := by
  cases i with
  | start n => rfl
  | startOdd n => rfl
  | _ => cases h

/-- A command offered while no frame is open and a symbol may be loaded fires (R67). -/
theorem fireCmd_offerCmd {p : Ports} {r : Regs} (w : Nat) (h0 : p.rst = false) (hidle : r.st = .idle)
    (hload : r.ov = false ∨ p.doutReady = true) : fireCmd (offerCmd w p) r = true :=
  (fireCmd_iff _ r).mpr ⟨rfl, h0, hidle, (canLoad_iff _ r).mpr hload⟩

/-- The state after an edge at which a command fires: the held symbol leaves, and a dibit offered waits (R80, R71). -/
theorem closeEdge_of_fireCmd {p : Ports} {s : State} (r : Regs) (hf : fireCmd p s.regs = true) :
    closeEdge p s r =
      { s with
        regs := r
        inputs := s.inputs.tail
        waitCmd := none
        waitDin := if p.dinValid then some p.dinDibit else none
        trace := s.trace ++
          [{ cmd := some p.cmdLen, din := none,
             dout := if s.regs.ov then some (heldSymbol s.config.iqTable s.regs) else none }] } := by
  obtain ⟨-, h0, -, hl⟩ := (fireCmd_iff p s.regs).mp hf
  simp [closeEdge, observe, hf, fireDin_of_fireCmd hf, fireDout_of_canLoad h0 hl]

/-- The word of `START` of `n` dibits opens a frame of `n` dibits (R52, R68). -/
theorem acceptCmd_encode_start {c : Config} {n : Nat} (p : Ports) (r : Regs) (hn : n < 2 ^ (c.lenW - 1)) :
    acceptCmd c p (encode (.start n)) r = acceptStart p n r := by
  simp [acceptCmd, cmdFieldP, cmdFieldN, encode, Nat.mod_eq_of_lt hn]

/-- The word of `START_ODD` raises the error, whatever its field (R69). -/
theorem acceptCmd_encode_startOdd (c : Config) (n : Nat) (p : Ports) (r : Regs) :
    acceptCmd c p (encode (.startOdd n)) r = raiseInvalidInputLength p r :=
  acceptCmd_of_odd (Nat.mul_add_mod 2 n 1)

/-- A command operation accepted in a live cycle: its word fires, and the registers are those of that word. -/
theorem exec_of_cmd_ready {i : Instr} {s : State} (hi : i.channel = .cmd) (hlive : Live (drive i (cycle s)) s)
    (hidle : s.regs.st = .idle) (hload : s.regs.ov = false ∨ (cycle s).doutReady = true) :
    fireCmd (drive i (cycle s)) s.regs = true ∧
      exec i s = .next (closeEdge (drive i (cycle s)) s
        (acceptCmd s.config (drive i (cycle s)) (encode i) s.regs)) := by
  have hexec := exec_of_live hlive
  obtain ⟨-, h0, -⟩ := hlive
  rw [drive_of_channel_cmd hi] at h0 hexec ⊢
  have hf := fireCmd_offerCmd (p := cycle s) (encode i) h0 hidle hload
  rw [edgeRegs, if_pos hf] at hexec
  exact ⟨hf, hexec⟩

/-- Settles O13: the word of `START` fires, and it opens the frame. -/
theorem startOpensAFrame : Obligations.StartOpensAFrame := by
  intro s n hwf hlive hidle hload
  obtain ⟨hf, hexec⟩ := exec_of_cmd_ready rfl hlive hidle hload
  rw [hexec, closeEdge_of_fireCmd _ hf, acceptCmd_encode_start _ _ (of_decide_eq_true hwf)]
  rfl

/-- Where a symbol may be loaded, the error leaves no symbol held (R69, R82). -/
theorem raiseInvalidInputLength_of_canLoad {p : Ports} {r : Regs} (h0 : p.rst = false) (hl : canLoad p r = true) :
    raiseInvalidInputLength p r = { r with ov := false, errs := true, errp := true } := by
  simp [raiseInvalidInputLength, raiseFlags, drain, fireDout_of_canLoad h0 hl]

/-- Settles O14: the word of `START_ODD` fires, and it raises the error. -/
theorem startOddRaisesInvalidInputLength : Obligations.StartOddRaisesInvalidInputLength := by
  intro s n _ hlive hidle hload
  obtain ⟨hf, hexec⟩ := exec_of_cmd_ready rfl hlive hidle hload
  obtain ⟨-, h0, -, hl⟩ := (fireCmd_iff _ _).mp hf
  rw [hexec, closeEdge_of_fireCmd _ hf, acceptCmd_encode_startOdd, raiseInvalidInputLength_of_canLoad h0 hl]
  rfl

/-! ### Waiting -/

/-- A command does not fire while a frame is open or the holding register stays full (R67). -/
theorem fireCmd_of_blocked {p : Ports} {r : Regs} (h : r.st = .run ∨ (r.ov = true ∧ p.doutReady = false)) :
    fireCmd p r = false := by
  rcases h with hrun | ⟨ho, hd⟩
  · simp [fireCmd, cmdReady, hrun]
  · simp [fireCmd, cmdReady, canLoad, ho, hd]

/-- With `rst = 0` an edge that takes no word only drains the holding register and settles the flags (R82, R84). -/
theorem quiet_of_no_rst {p : Ports} (r : Regs) (h0 : p.rst = false) :
    quiet p r = { r with ov := r.ov && !p.doutReady, errs := r.errs && !p.errClr, errp := false } := by
  cases ho : r.ov <;> simp [quiet, settleFlags, drain, fireDout, doutValid, h0, ho]

/-- Settles O22: neither channel fires, so the edge is a quiet one and the word offered is remembered. -/
theorem commandWaitsUntilReady : Obligations.CommandWaitsUntilReady := by
  intro s i hi hlive hblocked hdin
  have hexec := exec_of_live hlive
  obtain ⟨-, h0, -⟩ := hlive
  rw [drive_of_channel_cmd hi] at h0 hexec
  have hf : fireCmd (offerCmd (encode i) (cycle s)) s.regs = false := fireCmd_of_blocked hblocked
  have hd : fireDin (offerCmd (encode i) (cycle s)) s.regs = false := hdin
  refine ⟨_, hexec, ?_, ?_, ?_, ?_⟩
  · rw [closeEdge_regs, edgeRegs, dinPort, hf, hd]
    exact quiet_of_no_rst s.regs h0
  · simp [hf]
  · simp [acceptedCmds_observe, hf]
  · simp [acceptedDins_observe, hd]

end Sys2Proof.Machine
end

section
/-! The output ports (R57, R67, R71, R81, R85, R86, R105). -/

namespace Sys2Proof.Machine

theorem doutValid_iff (p : Ports) (r : Regs) : doutValid p r = true ↔ p.rst = false ∧ r.ov = true := by
  simp [doutValid]

theorem busy_iff (r : Regs) : busy r = true ↔ r.st = .run ∨ r.ov = true := by simp [busy]

/-- `busy` is the negation of quiescence, since `RUN` is the one state that is not `IDLE` (R85, R115, R16). -/
theorem busy_eq_not_quiescent (r : Regs) : busy r = !quiescent r := by
  cases hs : r.st <;> simp [busy, quiescent, hs]

/-- After the first reset edge, and only then, there are outputs, and they are those of the registers (R105). -/
theorem outputs_eq_some_iff (s : State) (o : OutPorts) :
    outputs s = some o ↔ s.resetSeen = true ∧ outPorts s.config.iqTable (cycle s) s.regs = o := by
  cases hs : s.resetSeen <;> simp [outputs, hs]

/-- Settles O27: each output port by the law of its function. -/
theorem statusOutputs : Obligations.StatusOutputs := by
  refine ⟨fun s o h => ?_, fun s => by simp [outputs]⟩
  obtain ⟨-, rfl⟩ := (outputs_eq_some_iff s o).mp h
  rw [← canLoad_iff]
  exact ⟨cmdReady_iff _ _, dinReady_iff _ _, doutValid_iff _ _, fun _ => rfl, busy_iff _, rfl, rfl,
    by simp [outPorts, busy_eq_not_quiescent]⟩

end Sys2Proof.Machine
end

section
/-! The prefix-sum law of a frame's phases (R79): the phase accumulated over a list of dibits is the sum of their deltas
modulo 8, and since every delta is odd the sum has the parity of their number. -/

namespace Sys2Proof.Machine

open Sys2Proof.Safety

/-- The sum of the deltas of a list of dibits, in units of π/4 (R79). -/
def deltaSum (ds : List Dibit) : Int := (ds.map fun d => delta d.toNat).sum

@[simp] theorem deltaSum_nil : deltaSum [] = 0 := rfl

@[simp] theorem deltaSum_cons (d : Dibit) (ds : List Dibit) : deltaSum (d :: ds) = delta d.toNat + deltaSum ds := by
  simp [deltaSum]

/-- Every delta is odd (R36). -/
theorem delta_emod_two (d : Dibit) : delta d.toNat % 2 = 1 := by
  revert d; decide

/-- A sum of deltas has the parity of their number, since each of them is odd (R79). -/
theorem deltaSum_emod_two (ds : List Dibit) : deltaSum ds % 2 = (ds.length : Int) % 2 := by
  induction ds with
  | nil => rfl
  | cons d ds ih =>
    have hodd := delta_emod_two d
    rw [deltaSum_cons, List.length_cons]
    omega

/-- The phase of an integer angle is the angle modulo 8 (R11, R18). -/
theorem toNat_ofInt_phase (x : Int) : ((BitVec.ofInt 3 x).toNat : Int) = x % 8 := by
  rw [BitVec.toNat_ofInt, Int.toNat_of_nonneg (Int.emod_nonneg x (by decide))]
  rfl

/-- The data symbol at index `j` is that of `j + 1` dibits: its phase is the sum of their deltas, from the accumulated
phase on, modulo 8 (R79). -/
theorem dataSymbols_phase {t : IqTable} {phase : Int} {n j : Nat} {ds : List Dibit} {y : OutSymbol}
    (h : (dataSymbols t phase n ds)[j]? = some y) :
    (y.phase.toNat : Int) = (phase + deltaSum (ds.take (j + 1))) % 8 := by
  induction ds generalizing phase n j with
  | nil => simp [dataSymbols] at h
  | cons d ds ih =>
    rw [List.take_succ_cons, deltaSum_cons, ← Int.add_assoc]
    cases j with
    | zero =>
      obtain rfl : dataSymbol t _ _ = y := by simpa [dataSymbols] using h
      rw [List.take_zero, deltaSum_nil, Int.add_zero, dataSymbol, toNat_ofInt_phase, Int.emod_emod]
    | succ j => rw [ih (by simpa [dataSymbols] using h), Int.emod_add_emod]

/-- The same for the symbols of a frame, whose reference symbol is at the empty sum (R68, R79). -/
theorem phase_of_referenceSymbol_cons_dataSymbols {t : IqTable} {m n j : Nat} {ds : List Dibit} {y : OutSymbol}
    (h : (referenceSymbol t m :: dataSymbols t 0 n ds)[j]? = some y) :
    (y.phase.toNat : Int) = deltaSum (ds.take j) % 8 := by
  cases j with
  | zero =>
    obtain rfl : referenceSymbol t m = y := by simpa using h
    rfl
  | succ j => rw [dataSymbols_phase (List.getElem?_cons_succ ▸ h), Int.zero_add]

/-- Settles O36: the frame's symbols are those of its dibits, so each phase is a prefix sum of odd deltas. -/
theorem phasesArePrefixSums : Obligations.PhasesArePrefixSums := by
  intro s s₁ t w k heven hs hw hcycles ht hcmds j y hy
  rw [symbols_of_frame heven hs hw hcycles ht hcmds] at hy
  have hphase := phase_of_referenceSymbol_cons_dataSymbols hy
  obtain ⟨hj, -⟩ := List.getElem?_eq_some_iff.mp hy
  rw [List.length_cons, dataSymbols_length] at hj
  have hparity := deltaSum_emod_two ((acceptedDins (newEdges s₁ t)).take j)
  rw [List.length_take_of_le (Nat.le_of_lt_succ hj)] at hparity
  exact ⟨hphase, by omega⟩

end Sys2Proof.Machine
end

section
/-! The dibit operations at one edge: accepted (R72 to R77), or waiting (R71). -/

namespace Sys2Proof.Machine

open Sys2Proof.Safety

/-- The word of an operation on the wires of `din` (R54). -/
def dibitOf (i : Instr) : Dibit := BitVec.ofNat 2 (encode i)

/-- An operation of the `din` channel offers its word there and drives nothing else (R51). -/
theorem drive_of_channel_din {i : Instr} (h : i.channel = .din) (p : Ports) : drive i p = offerDin (dibitOf i) p := by
  cases i with
  | dib00 => rfl
  | dib01 => rfl
  | dib10 => rfl
  | dib11 => rfl
  | _ => cases h

/-! ### Accepted -/

/-- A dibit offered while a frame is open and a symbol may be loaded fires (R71). -/
theorem fireDin_offerDin {p : Ports} {r : Regs} (d : Dibit) (h0 : p.rst = false) (hrun : r.st = .run)
    (hload : r.ov = false ∨ p.doutReady = true) : fireDin (offerDin d p) r = true :=
  (fireDin_iff _ r).mpr ⟨rfl, h0, hrun, (canLoad_iff _ r).mpr hload⟩

/-- The state after an edge at which a dibit fires: the held symbol leaves, and a command offered waits (R80, R67). -/
theorem closeEdge_of_fireDin {p : Ports} {s : State} (r : Regs) (hf : fireDin p s.regs = true) :
    closeEdge p s r =
      { s with
        regs := r
        inputs := s.inputs.tail
        waitCmd := if p.cmdValid then some p.cmdLen else none
        waitDin := none
        trace := s.trace ++
          [{ cmd := none, din := some p.dinDibit,
             dout := if s.regs.ov then some (heldSymbol s.config.iqTable s.regs) else none }] } := by
  obtain ⟨-, h0, -, hl⟩ := (fireDin_iff p s.regs).mp hf
  simp [closeEdge, observe, hf, fireCmd_of_fireDin hf, fireDout_of_canLoad h0 hl]

/-- A dibit operation accepted in a live cycle: its word fires, and the registers are those of `DIBSTEP` (R72). -/
theorem exec_of_din_ready {i : Instr} {s : State} (hi : i.channel = .din) (hlive : Live (drive i (cycle s)) s)
    (hrun : s.regs.st = .run) (hload : s.regs.ov = false ∨ (cycle s).doutReady = true) :
    fireDin (offerDin (dibitOf i) (cycle s)) s.regs = true ∧
      exec i s = .next (closeEdge (offerDin (dibitOf i) (cycle s)) s
        (dibStep s.config (cycle s) (dibitOf i) s.regs)) := by
  have hexec := exec_of_live hlive
  obtain ⟨-, h0, -⟩ := hlive
  rw [drive_of_channel_din hi] at h0 hexec
  have hf := fireDin_offerDin (p := cycle s) (dibitOf i) h0 hrun hload
  rw [edgeRegs, if_neg (by simp [fireCmd_of_fireDin hf]), dinPort, if_pos hf] at hexec
  exact ⟨hf, hexec⟩

/-- `DIBSTEP` with dibits due: the count falls by one without wrapping (R72, R78). -/
theorem dibStep_of_due {c : Config} {r : Regs} (p : Ports) (d : Dibit) (hpos : 1 ≤ r.rem)
    (hfits : r.rem < 2 ^ (c.lenW - 1)) :
    dibStep c p d r =
      { st := if r.rem = 1 then .idle else .run, phase := phaseAdd r.phase (deltaRom d), rem := r.rem - 1, ov := true,
        oph := phaseAdd r.phase (deltaRom d), oref := false, olast := decide (r.rem = 1), errs := r.errs && !p.errClr,
        errp := false } := by
  rw [← decRem_of_pos hpos hfits]
  rfl

/-- The four dibit operations, their words and the deltas of the words (R73 to R76). -/
theorem dibit_operation_delta {i : Instr} {d : Dibit} {δ : Int}
    (h : (i, d, δ) ∈ [(Instr.dib00, 0b00#2, (1 : Int)), (.dib01, 0b01#2, 3), (.dib10, 0b10#2, -1),
      (.dib11, 0b11#2, -3)]) : i.channel = .din ∧ dibitOf i = d ∧ delta d.toNat = δ := by
  simp only [List.mem_cons, List.not_mem_nil, or_false, Prod.mk.injEq] at h
  rcases h with ⟨rfl, rfl, rfl⟩ | ⟨rfl, rfl, rfl⟩ | ⟨rfl, rfl, rfl⟩ | ⟨rfl, rfl, rfl⟩ <;> decide

/-- Settles O15: the operation's word fires, and it performs `DIBSTEP`. -/
theorem dibitStepsThePhase : Obligations.DibitStepsThePhase := by
  intro s i d δ hmem hlive hrun hload hpos hfits
  obtain ⟨hi, rfl, rfl⟩ := dibit_operation_delta hmem
  obtain ⟨hf, hexec⟩ := exec_of_din_ready hi hlive hrun hload
  refine ⟨phaseAdd s.regs.phase (deltaRom (dibitOf i)), phaseAdd_deltaRom_toNat _ _, ?_⟩
  rw [hexec, closeEdge_of_fireDin _ hf, dibStep_of_due _ _ hpos hfits]
  rfl

/-- The table of R77 lists, for each operation, the phase adder's results in the order of the phases. -/
theorem phaseTransitionTable_row {i : Instr} {row : List Nat}
    (h : (i, row) ∈ [(Instr.dib00, [1, 2, 3, 4, 5, 6, 7, 0]), (.dib01, [3, 4, 5, 6, 7, 0, 1, 2]),
      (.dib10, [7, 0, 1, 2, 3, 4, 5, 6]), (.dib11, [5, 6, 7, 0, 1, 2, 3, 4])]) :
    i.channel = .din ∧ ∀ p : Phase, row[p.toNat]? = some (phaseAdd p (deltaRom (dibitOf i))).toNat := by
  simp only [List.mem_cons, List.not_mem_nil, or_false, Prod.mk.injEq] at h
  rcases h with ⟨rfl, rfl⟩ | ⟨rfl, rfl⟩ | ⟨rfl, rfl⟩ | ⟨rfl, rfl⟩ <;> decide

/-- Settles O16: an accepted dibit leaves in `PHASE` what the phase adder gives. -/
theorem phaseTransitionTable : Obligations.PhaseTransitionTable := by
  intro i row p hmem s hp hrun hload hlive
  obtain ⟨hi, hrow⟩ := phaseTransitionTable_row hmem
  obtain ⟨-, hexec⟩ := exec_of_din_ready hi hlive hrun hload
  refine ⟨_, hexec, ?_⟩
  rw [closeEdge_regs, dibStep_phase, hp]
  exact hrow p

/-! ### Waiting -/

/-- A dibit does not fire while no frame is open or the holding register stays full (R71). -/
theorem fireDin_of_blocked {p : Ports} {r : Regs} (h : r.st = .idle ∨ (r.ov = true ∧ p.doutReady = false)) :
    fireDin p r = false := by
  rcases h with hidle | ⟨ho, hd⟩
  · simp [fireDin, dinReady, hidle]
  · simp [fireDin, dinReady, canLoad, ho, hd]

/-- Settles O23: neither channel fires, so the edge is a quiet one and the dibit offered is remembered. -/
theorem dibitWaitsUntilReady : Obligations.DibitWaitsUntilReady := by
  intro s i hi hlive hblocked hcmd
  have hexec := exec_of_live hlive
  obtain ⟨-, h0, -⟩ := hlive
  rw [drive_of_channel_din hi] at h0 hexec
  have hd : fireDin (offerDin (dibitOf i) (cycle s)) s.regs = false := fireDin_of_blocked hblocked
  have hf : fireCmd (offerDin (dibitOf i) (cycle s)) s.regs = false := hcmd
  refine ⟨_, hexec, ?_, ?_, ?_, ?_⟩
  · rw [closeEdge_regs, edgeRegs, dinPort, hf, hd]
    exact quiet_of_no_rst s.regs h0
  · rw [closeEdge_waitDin, hd]
    rfl
  · simp [acceptedCmds_observe, hf]
  · simp [acceptedDins_observe, hd]

end Sys2Proof.Machine
end

section
/-! The complete step of one edge, R88 as transcribed in `edgeStep`, and the model's edge: they take the same word and
show the same transfers, so they agree in each of the three things an edge can take. -/

namespace Sys2Proof.Machine

open Sys2Proof.Safety

/-- The counter of R88, written out at 0 and elsewhere, is the wrapping decrement (R72, R19). -/
theorem decRem_eq_ite {c : Config} {n : Nat} (h : n < 2 ^ (c.lenW - 1)) :
    decRem c n = if n = 0 then 2 ^ (c.lenW - 1) - 1 else n - 1 := by
  by_cases h0 : n = 0
  · rw [if_pos h0, h0, decRem, Nat.zero_add, Nat.mod_eq_of_lt (Nat.sub_one_lt (Nat.ne_of_gt (Nat.two_pow_pos _)))]
  · rw [if_neg h0, decRem_of_pos (Nat.pos_of_ne_zero h0) h]

/-- The phase adder is the sum modulo 8 of R88 (R72). -/
theorem phaseAdd_eq_ofNat (k : Phase) (a : DeltaCode) : phaseAdd k a = BitVec.ofNat 3 ((k.toNat + a.toNat) % 8) := by
  rw [phaseAdd_eq_add]
  exact BitVec.eq_of_toNat_eq (by simp)

/-- The transfers of R88 are those the model observes, at a reset edge and at every other. -/
theorem edgeStep_emit (c : Config) (p : Ports) (r : Regs) : (edgeStep c r p).2 = observe c.iqTable p r := by
  simp only [edgeStep, ← canLoad_iff, ← fireCmd_iff, ← fireDin_iff, and_assoc, ← fireDout_iff]
  split <;> rfl

theorem edgeStep_regs_of_rst {c : Config} {p : Ports} {r : Regs} (h : p.rst = true) :
    (edgeStep c r p).1 = resetValues := by
  simp [edgeStep, h, resetValues]

/-- At an edge with `rst = 0` the registers of R88 are the model's, whichever word the edge takes. -/
theorem edgeStep_regs_of_no_rst {c : Config} {p : Ports} {r : Regs} (h0 : p.rst = false) (hfit : CmdFits c p r)
    (hrem : r.rem < 2 ^ (c.lenW - 1)) : (edgeStep c r p).1 = edgeRegs c p r := by
  simp only [edgeStep, ← canLoad_iff, ← fireCmd_iff, ← fireDin_iff, and_assoc, ← fireDout_iff]
  rcases edgeRegs_cases c p r with ⟨hf, he⟩ | ⟨hf, hd, he⟩ | ⟨hf, hd, he⟩ <;> rw [he]
  · rcases Nat.mod_two_eq_zero_or_one p.cmdLen with heven | hodd
    · rw [acceptCmd_of_even (hfit hf) heven]
      cases hx : p.errClr <;> simp [h0, hf, heven, hx, acceptStart, settleFlags, loadSymbol]
    · rw [acceptCmd_of_odd hodd]
      simp [h0, hf, fireDin_of_fireCmd hf, hodd, raiseInvalidInputLength, raiseFlags, drain]
  · cases hx : p.errClr <;>
      simp [h0, hf, hd, hx, dibStep, settleFlags, loadSymbol, decRem_eq_ite hrem, phaseAdd_eq_ofNat]
  · cases hx : p.errClr <;> simp [h0, hf, hd, hx, quiet, settleFlags, drain]

/-- A reset edge shows no transfer (R103). -/
theorem observe_of_rst {p : Ports} {r : Regs} (t : IqTable) (h : p.rst = true) :
    observe t p r = { cmd := none, din := none, dout := none } := by
  simp [observe, fireCmd, cmdReady, fireDin, dinReady, fireDout, doutValid, h]

/-- An edge after the first reset, with the host's offers kept, answers the complete step of its ports (R88). -/
theorem atEdge_edgeStep {p : Ports} {s : State} (hs : s.resetSeen = true) (hk : offersKept p s = true)
    (hfit : CmdFits s.config p s.regs) (hrem : s.regs.rem < 2 ^ (s.config.lenW - 1)) :
    ∃ t, atEdge p s (edgeRegs s.config p s.regs) = .next t ∧ t.regs = (edgeStep s.config s.regs p).1 ∧
      t.trace = s.trace ++ [(edgeStep s.config s.regs p).2] ∧ t.config = s.config ∧
      t.inputs = s.inputs.tail ∧ t.resetSeen = true := by
  rw [edgeStep_emit]
  cases hr : p.rst with
  | true =>
    exact ⟨_, atEdge_of_rst hr, (edgeStep_regs_of_rst hr).symm, by rw [observe_of_rst _ hr, resetEdge_trace],
      rfl, rfl, rfl⟩
  | false =>
    exact ⟨_, atEdge_of_live ⟨hs, hr, hk⟩, (edgeStep_regs_of_no_rst hr hfit hrem).symm, rfl, rfl, rfl, hs⟩

/-- Settles O9: a step is the edge of the coming cycle's ports, whatever the word it takes. -/
theorem stepIsTheCompleteStepOfOneEdge : Obligations.StepIsTheCompleteStepOfOneEdge := by
  intro s hs hk hfit hrem
  rw [step_eq_atEdge hfit]
  exact atEdge_edgeStep hs hk hfit hrem

/-- Settles O10: an operation is the edge of the cycle that offers it, whether its word is accepted or waits. -/
theorem everyOperationIsTheEdgeThatOffersIt : Obligations.EveryOperationIsTheEdgeThatOffersIt := by
  intro i s hs hk hfit hrem
  obtain ⟨t, ht, hregs, htrace, hconfig, -⟩ := atEdge_edgeStep hs hk hfit hrem
  exact ⟨t, (exec_eq_atEdge i s).trans ht, hregs, htrace, hconfig⟩

end Sys2Proof.Machine
end

section
/-! Frame equivalence with the source's `ENC` (R87, R3, R92): a complete even frame is delivered whole, and an odd
command only raises the error. -/

namespace Sys2Proof.Machine

open Sys2Proof.Safety

/-- The positions of a frame of `n` dibits that carry the last mark: the last of them alone (R70). -/
theorem map_decide_eq_range_succ (n : Nat) :
    ((List.range (n + 1)).map fun m => decide (m = n)) = List.replicate n false ++ [true] := by
  have hbefore : ∀ m ∈ List.range n, decide (m = n) = false := fun m hm =>
    decide_eq_false (Nat.ne_of_lt (List.mem_range.mp hm))
  rw [List.range_succ, List.map_append, List.map_congr_left hbefore, List.map_const', List.length_range]
  simp

/-- Settles O33: nothing is held at the end, so what is delivered is the frame of `bits`, which is `ENC(bits)`; its
marks are those of the length law at its last position. -/
theorem evenFrameDeliversTheReferenceEncoding : Obligations.EvenFrameDeliversTheReferenceEncoding := by
  intro s s₁ t bits k heven hs hw hcycles ht hcmds hdins hov
  have hlen := dibitsOf_length bits
  have hsymbols := symbols_of_frame heven hs hw hcycles ht hcmds
  obtain ⟨-, -, href, hlast⟩ := frameLengthLaw s s₁ t bits.length k heven hs hw hcycles ht hcmds
  rw [held_of_empty hov, List.append_nil] at hsymbols href hlast
  rw [hdins, hlen] at href hlast
  have hframe : delivered (newEdges s₁ t) = frameSymbols s.config.iqTable (dibitsOf bits) := by
    rw [hsymbols, hdins, step_config hs, frameSymbols, hlen]
  refine ⟨?_, ?_, href, hlast.trans (map_decide_eq_range_succ _)⟩
  · rw [hframe]
    exact enc_eq_frameSymbols s.config.iqTable bits heven
  · rw [hframe]
    exact frameSymbols_phases s.config.iqTable bits heven

/-- Settles O34: the command's edge is the taking of the error, which forms no symbol and only drains the one held. -/
theorem oddFrameDeliversNothing : Obligations.OddFrameDeliversNothing := by
  intro s s₁ bits hodd hs hw
  obtain ⟨-, hf, -, rfl⟩ := step_of_acceptedCmds hs hw
  obtain ⟨-, -, hidle, -⟩ := (fireCmd_iff _ _).mp hf
  rw [acceptCmd_of_odd hodd, newEdges_closeEdge, acceptedDins_observe, fireDin_of_fireCmd hf]
  exact ⟨enc_of_odd s.config.iqTable bits hodd, rfl, rfl, hidle, rfl,
    delivered_observe_append_held_drain s.config.iqTable (cycle s) s.regs⟩

end Sys2Proof.Machine
end

section
/-! Edges that take no input word, `ERRCLR`, and the held symbol (R82 to R84). -/

namespace Sys2Proof.Machine

open Sys2Proof.Safety

/-- Settles O7: the step's dispatch is `exec` of the operation decoded. -/
theorem stepRunsTheWordThatFires : Obligations.StepRunsTheWordThatFires :=
  fun _ _ _ _ hf hd => step_of_fetch hf hd

/-! ### Edges with no input transfer -/

/-- The state after an edge at which no input word fires: the symbol held leaves if downstream takes it, and what is
offered waits (R82, R67, R71). -/
theorem closeEdge_of_quiet {p : Ports} {s : State} (r : Regs) (h0 : p.rst = false) (hf : fireCmd p s.regs = false)
    (hd : fireDin p s.regs = false) :
    closeEdge p s r =
      { s with
        regs := r
        inputs := s.inputs.tail
        waitCmd := if p.cmdValid then some p.cmdLen else none
        waitDin := if p.dinValid then some p.dinDibit else none
        trace := s.trace ++
          [{ cmd := none, din := none,
             dout := if s.regs.ov && p.doutReady then some (heldSymbol s.config.iqTable s.regs) else none }] } := by
  simp [closeEdge, observe, hf, hd, fireDout, doutValid, h0]

theorem edgeRegs_of_quiet {c : Config} {p : Ports} {r : Regs} (hf : fireCmd p r = false) (hd : fireDin p r = false) :
    edgeRegs c p r = quiet p r := by
  simp [edgeRegs, dinPort, hf, hd]

/-- A cycle takes no word exactly when nothing fires and both control inputs are 0 (R56, R88). -/
theorem fetch_eq_none_iff (s : State) :
    fetch s = none ↔ (cycle s).rst = false ∧ fireCmd (cycle s) s.regs = false ∧
      fireDin (cycle s) s.regs = false ∧ (cycle s).errClr = false := by
  by_cases hr : (cycle s).rst = true
  · simp [fetch, hr]
  by_cases hf : fireCmd (cycle s) s.regs = true
  · simp [fetch, hr, hf]
  by_cases hd : fireDin (cycle s) s.regs = true
  · simp [fetch, hr, hf, hd]
  · simp [fetch, hr, hf, hd]

/-- Settles O8: the edge is a quiet one, and without `err_clr` it keeps `ERRS`. -/
theorem edgeWithNoWordOnlyDrains : Obligations.EdgeWithNoWordOnlyDrains := by
  intro s hlive hfetch
  obtain ⟨h0, hf, hd, hx⟩ := (fetch_eq_none_iff s).mp hfetch
  rw [step_of_live hlive (by simp [CmdFits, hf]), edgeRegs_of_quiet hf hd, closeEdge_of_quiet _ h0 hf hd,
    quiet_of_no_rst _ h0, hx, Bool.not_false, Bool.and_true]

/-- Settles O17: the edge is a quiet one with `err_clr = 1`. -/
theorem errClrClearsTheStickyFlag : Obligations.ErrClrClearsTheStickyFlag := by
  intro s hlive hf hd
  have hexec := exec_of_live (i := .errclr) hlive
  obtain ⟨-, h0, -⟩ := hlive
  have hf' : fireCmd (assertErrClr (cycle s)) s.regs = false := hf
  have hd' : fireDin (assertErrClr (cycle s)) s.regs = false := hd
  have h0' : (assertErrClr (cycle s)).rst = false := h0
  rw [hexec, drive, edgeRegs_of_quiet hf' hd', closeEdge_of_quiet _ h0' hf' hd', quiet_of_no_rst _ h0',
    assertErrClr_errClr, Bool.not_true, Bool.and_false]
  rfl

/-! ### `ERRCLR` beside any transfer -/

/-- Settling the flags with `err_clr = 1` differs in `ERRS` alone (R84 d). -/
theorem settleFlags_assertErrClr (p : Ports) (r : Regs) :
    settleFlags (assertErrClr p) r = withErrs false (settleFlags p r) := by
  simp [settleFlags, withErrs]

/-- Beside an accepted command `err_clr` leaves in `ERRS` whether the word is odd (R84 b). -/
theorem acceptCmd_assertErrClr (c : Config) (p : Ports) (w : Nat) (r : Regs) :
    acceptCmd c (assertErrClr p) w r = withErrs (decide (w % 2 = 1)) (acceptCmd c p w r) := by
  by_cases hodd : w % 2 = 1
  · rw [acceptCmd_of_odd hodd, acceptCmd_of_odd hodd, decide_eq_true hodd]
    rfl
  · simp only [acceptCmd, cmdFieldP, hodd, decide_false, Bool.false_eq_true, if_false]
    exact settleFlags_assertErrClr p _

/-- `err_clr` writes nothing but `ERRS`, and an odd command that fires at the same edge sets it (R84 b, d). -/
theorem edgeRegs_assertErrClr (c : Config) (p : Ports) (r : Regs) :
    edgeRegs c (assertErrClr p) r =
      withErrs (fireCmd p r && decide (p.cmdLen % 2 = 1)) (edgeRegs c p r) := by
  have hcmd : fireCmd (assertErrClr p) r = fireCmd p r := rfl
  have hdin : fireDin (assertErrClr p) r = fireDin p r := rfl
  rcases edgeRegs_cases c p r with ⟨hf, he⟩ | ⟨hf, hd, he⟩ | ⟨hf, hd, he⟩ <;> rw [he, hf]
  · rw [edgeRegs, if_pos (hcmd.trans hf), Bool.true_and]
    exact acceptCmd_assertErrClr c p p.cmdLen r
  · simp only [edgeRegs, dinPort, hcmd, hdin, hf, hd]
    exact settleFlags_assertErrClr p _
  · rw [edgeRegs_of_quiet (hcmd.trans hf) (hdin.trans hd)]
    exact settleFlags_assertErrClr p _

/-- Settles O18: both cycles take the same word and show the same transfers, and the registers after them differ in `ERRS`
alone. -/
theorem errClrWritesNothingButErrs : Obligations.ErrClrWritesNothingButErrs := by
  intro s p rest hi hlive hfit
  have hp : cycle s = p := by rw [cycle, hi]
  have hexec := exec_of_live (i := .errclr) (s := s) (by rw [hp]; exact hlive)
  have hstep := step_of_live (s := { s with inputs := { p with errClr := false } :: rest }) hlive hfit
  rw [hp] at hexec
  exact ⟨_, _, hexec, hstep, edgeRegs_assertErrClr s.config { p with errClr := false } s.regs, rfl⟩

/-! ### The symbol held -/

/-- With `rst = 0` and downstream not ready, a step from a full holding register takes no word and delivers nothing, and
the symbol stays (R80, R83). -/
theorem step_of_stalled {s t : State} (hov : s.regs.ov = true) (h0 : (cycle s).rst = false)
    (hready : (cycle s).doutReady = false) (h : step s = .next t) :
    t.regs.ov = true ∧ heldSymbol t.config.iqTable t.regs = heldSymbol s.config.iqTable s.regs ∧
      delivered (newEdges s t) = [] ∧ t.inputs = s.inputs.tail := by
  have hf := fireCmd_of_blocked (.inr ⟨hov, hready⟩)
  have hd := fireDin_of_blocked (.inr ⟨hov, hready⟩)
  have hout : fireDout (cycle s) s.regs = false := by simp [fireDout, hready]
  obtain ⟨-, -, rfl⟩ := step_of_no_rst h0 h
  rw [edgeRegs_of_quiet hf hd, newEdges_closeEdge]
  refine ⟨?_, rfl, ?_, rfl⟩
  · rw [closeEdge_regs, quiet_ov, hov, hout]
    rfl
  · simp [delivered, observe, hout]

/-- Settles O29, by induction on the number of cycles: each is stalled, so each keeps the symbol. -/
theorem offeredSymbolStaysUntilTransferred : Obligations.OfferedSymbolStaysUntilTransferred := by
  intro k s u hov hcycles h
  induction k generalizing s with
  | zero =>
    obtain rfl : s = u := by simpa [runSteps] using h
    exact ⟨hov, rfl, by simp [newEdges, delivered]⟩
  | succ k ih =>
    obtain ⟨t, hs, hu⟩ := runSteps_succ_iff.mp h
    obtain ⟨h0, hready⟩ : (cycle s).rst = false ∧ (cycle s).doutReady = false := by
      simpa using cycle_of_nextCycles hcycles
    obtain ⟨hov', hsame, hnone, hinputs⟩ := step_of_stalled hov h0 hready hs
    obtain ⟨huov, husame, hunone⟩ := ih t hov' (nextCycles_tail hcycles hinputs) hu
    exact ⟨huov, husame.trans hsame, by rw [newEdges_of_step_runSteps hs hu, delivered_append, hnone, hunone]; rfl⟩

end Sys2Proof.Machine
end

section
/-! `rst = 1` overrides every other port of its cycle (R95 (1), R103). -/

namespace Sys2Proof.Machine

open Sys2Proof.Safety

theorem cmdReady_of_rst {p : Ports} (r : Regs) (h : p.rst = true) : cmdReady p r = false := by
  simp [cmdReady, h]

theorem dinReady_of_rst {p : Ports} (r : Regs) (h : p.rst = true) : dinReady p r = false := by
  simp [dinReady, h]

theorem doutValid_of_rst {p : Ports} (r : Regs) (h : p.rst = true) : doutValid p r = false := by
  simp [doutValid, h]

/-- No operation offered in a reset cycle takes `rst` back to 0. -/
theorem drive_rst_of_rst (i : Instr) {p : Ports} (h : p.rst = true) : (drive i p).rst = true := by
  by_cases hi : i = .reset
  · rw [hi, drive, assertRst_rst]
  · rw [drive_rst hi, h]

/-- In a cycle with `rst = 1` every operation is the reset edge, from any state (R95 (1)). -/
theorem exec_of_rst (i : Instr) {s : State} (h : (cycle s).rst = true) : exec i s = .next (resetEdge s) := by
  rw [exec_eq_atEdge, atEdge_of_rst (drive_rst_of_rst i h)]

/-- Settles O20: no handshake output is raised, and the step and each operation are the same reset edge. -/
theorem rstOverridesEveryOperation : Obligations.RstOverridesEveryOperation := by
  intro s h
  have hreset : exec .reset s = .next (resetEdge s) := exec_of_rst .reset h
  exact ⟨cmdReady_of_rst _ h, dinReady_of_rst _ h, doutValid_of_rst _ h, (step_of_rst h).trans hreset.symm,
    fun i => (exec_of_rst i h).trans hreset.symm⟩

end Sys2Proof.Machine
end

section
/-! The end of a script's run and its result (R115, R64): the run of `ENCODE bits` ends at the first edge at which the
block is quiescent with both queues empty, and the edges after it show nothing more. -/

namespace Sys2Proof.Machine

open Sys2Proof.Safety

/-- The run to the end from edge `e`, within `n` edges, has a result: symbols `ys` and the final `err_len` `errs`. -/
def HasResultWithin (h : ScriptHost) (e : Nat) (s : State) (n : Nat) (ys : List OutSymbol) (errs : Bool) : Prop :=
  ∃ h' t y, scriptToEnd h e s n = .next (h', t) ∧ scriptResult h' t = some y ∧ y.symbols = ys ∧ y.errLen = errs

theorem hasResultWithin_of_edge {h h' : ScriptHost} {e n : Nat} {s t : State} {ys : List OutSymbol} {errs : Bool}
    (hs : scriptEnded h s = false) (ht : scriptEdge h e s = .next (h', t))
    (hres : HasResultWithin h' (e + 1) t n ys errs) : HasResultWithin h e s (n + 1) ys errs := by
  rwa [HasResultWithin, scriptToEnd_of_edge hs ht]

/-- A run that is to end after one edge more ends so from the state after the edge. -/
theorem endsWith_after_edge {h h' : ScriptHost} {e n : Nat} {s t : State} {ys : List OutSymbol} {errs : Bool}
    (hs : scriptEdge h e s = .next (h', t)) (hend : EndsWith h e s (n + 1) ys errs) :
    EndsWith h' (e + 1) t n ys errs := by
  simpa [EndsWith, scriptRun, hs] using hend

/-- The edges of a run determine what it ends with. -/
theorem endsWith_unique {h : ScriptHost} {e n : Nat} {s : State} {ys ys' : List OutSymbol} {errs errs' : Bool}
    (hend : EndsWith h e s n ys errs) (hend' : EndsWith h e s n ys' errs') : ys = ys' ∧ errs = errs' := by
  obtain ⟨t, hrun, -, rfl, rfl⟩ := hend
  obtain ⟨t', hrun', -, rfl, rfl⟩ := hend'
  obtain rfl : t = t' := by simpa using hrun.symm.trans hrun'
  exact ⟨rfl, rfl⟩

/-- A run that is over at its start and that `n` edges bring to an end has the result these edges end with: the edges of
a host with nothing to offer add nothing to what the start shows (R82, R115). -/
theorem hasResultWithin_of_ended {starts : List Nat} {dibs : List Dibit} {e n : Nat} {s : State} {ys : List OutSymbol}
    {errs : Bool} (bound : Nat) (he : 0 < e) (hd : Driven (encodeHost starts dibs) s)
    (hs : scriptEnded (encodeHost starts dibs) s = true) (hend : EndsWith (encodeHost starts dibs) e s n ys errs) :
    HasResultWithin (encodeHost starts dibs) e s bound ys errs := by
  obtain ⟨-, ⟨hidle, hov⟩, hstarts, hdibs⟩ := (scriptEnded_iff _ s).mp hs
  obtain rfl : starts = [] := hstarts
  obtain rfl : dibs = [] := hdibs
  have hstart : EndsWith (encodeHost [] []) e s n (delivered s.trace) s.regs.errs := by
    cases n with
    | zero => exact ⟨s, rfl, (quiescent_iff s.regs).mpr ⟨hidle, hov⟩, rfl, rfl⟩
    | succ n => simpa [held_of_empty hov] using endsWith_of_idle he hd hidle n
  obtain ⟨rfl, rfl⟩ := endsWith_unique hend hstart
  exact ⟨_, s, resultAt s, scriptToEnd_of_ended e bound hs, by rw [scriptResult, if_pos hs], rfl, rfl⟩

/-- A run that no edge brings to its end is over. -/
theorem scriptEnded_of_endsWith_zero {h : ScriptHost} {e : Nat} {s : State} {ys : List OutSymbol} {errs : Bool}
    (hs : s.resetSeen = true) (hend : EndsWith h e s 0 ys errs) : scriptEnded h s = true := by
  obtain ⟨t, hrun, hq, -⟩ := hend
  obtain ⟨rfl, rfl⟩ : h = encodeHost [] [] ∧ s = t := by simpa [scriptRun] using hrun
  exact (scriptEnded_iff _ s).mpr ⟨hs, (quiescent_iff _).mp hq, rfl, rfl⟩

/-- Whatever larger bound is set on its edges, a run that `n` edges bring to an end has a result, with the symbols and
the flag the `n` edges end with. -/
theorem hasResultWithin_of_endsWith {starts : List Nat} {dibs : List Dibit} {e n bound : Nat} {s : State}
    {ys : List OutSymbol} {errs : Bool} (he : 0 < e) (hd : Driven (encodeHost starts dibs) s)
    (hend : EndsWith (encodeHost starts dibs) e s n ys errs) (hn : n ≤ bound) :
    HasResultWithin (encodeHost starts dibs) e s bound ys errs := by
  induction n generalizing starts dibs e s bound with
  | zero => exact hasResultWithin_of_ended bound he hd (scriptEnded_of_endsWith_zero hd.resetSeen hend) hend
  | succ n ih =>
    cases hs : scriptEnded (encodeHost starts dibs) s with
    | true => exact hasResultWithin_of_ended bound he hd hs hend
    | false =>
      obtain ⟨m, rfl⟩ : ∃ m, bound = m + 1 := ⟨bound - 1, by omega⟩
      have hedge := scriptEdge_of_driven (e := e) hd (by simpa [encodeHost] using Nat.ne_of_gt he)
      have hnext := driven_afterEdge e hd
      rw [scriptPorts_encodeHost he, scriptTaken_encodeHost] at hedge hnext
      exact hasResultWithin_of_edge hs hedge
        (ih (Nat.succ_pos e) hnext (endsWith_after_edge hedge hend) (Nat.le_of_succ_le_succ hn))

/-- The same from power-on, where the first edge is the reset edge: before it no run has ended (R105). -/
theorem hasResultWithin_of_powerOn {c : Config} {r : Regs} {w n bound : Nat} {ds : List Dibit} {ys : List OutSymbol}
    {errs : Bool} (hw : w < 2 ^ c.lenW) (hend : EndsWith (encodeHost [w] ds) 0 (powerOn c r) (n + 1) ys errs)
    (hn : n + 1 ≤ bound) : HasResultWithin (encodeHost [w] ds) 0 (powerOn c r) bound ys errs := by
  obtain ⟨m, rfl⟩ : ∃ m, bound = m + 1 := ⟨bound - 1, by omega⟩
  have hedge := scriptEdge_of_reset (h := encodeHost [w] ds) (e := 0) (powerOn c r) (by simp [encodeHost])
  exact hasResultWithin_of_edge rfl hedge (hasResultWithin_of_endsWith Nat.one_pos (driven_resetEdge ds _ hw)
    (endsWith_after_edge hedge hend) (Nat.le_of_succ_le_succ hn))

/-- Settles O46: the `N + 3` edges of O42 bring the run to its end, so it has a result within any larger bound, and the
result is what those edges deliver, which is `ENC(bits)`. -/
theorem encodeScriptEndsWithTheReferenceEncoding : Obligations.EncodeScriptEndsWithTheReferenceEncoding := by
  intro c r bits n hw hn
  rw [scriptHost_encodeOps]
  by_cases heven : bits.length % 2 = 0
  · obtain ⟨h, t, y, hrun, hres, hys, herr⟩ :=
      hasResultWithin_of_powerOn hw (endsWith_encode_even c r bits hw heven) hn
    rw [if_pos heven]
    refine ⟨h, t, y, hrun, hres, ?_⟩
    rw [if_pos heven, hys]
    exact ⟨enc_eq_frameSymbols c.iqTable bits heven, herr⟩
  · have hodd : bits.length % 2 = 1 := Nat.mod_two_ne_zero.mp heven
    obtain ⟨h, t, y, hrun, hres, hys, herr⟩ :=
      hasResultWithin_of_powerOn hw (endsWith_encode_odd c r bits hw hodd) hn
    rw [if_neg heven]
    refine ⟨h, t, y, hrun, hres, ?_⟩
    rw [if_neg heven]
    exact ⟨enc_of_odd c.iqTable bits hodd, hys, herr⟩

end Sys2Proof.Machine
end

section
/-! Throughput with an eager host and a downstream that is always ready (R114): every edge takes a word, so one symbol
leaves per edge from the edge after a frame's command on. -/

namespace Sys2Proof.Machine

open Sys2Proof.Safety

/-- What an edge shows, the symbol by its presence alone. -/
def transfers (e : EdgeObs) : Option Nat × Option Dibit × Bool := (e.cmd, e.din, e.dout.isSome)

/-- The next `k` edges from `s` complete and show the transfers `l`. -/
def Shows (k : Nat) (s : State) (l : List (Option Nat × Option Dibit × Bool)) : Prop :=
  ∃ t, runSteps k s = .next t ∧ (newEdges s t).map transfers = l

theorem shows_zero (s : State) : Shows 0 s [] := ⟨s, rfl, by simp [newEdges]⟩

/-! ### One edge of an eager host -/

@[simp] theorem eagerCycle_cmdValid (w : Nat) (d : Dibit) : (eagerCycle w d).cmdValid = true := rfl

@[simp] theorem eagerCycle_cmdLen (w : Nat) (d : Dibit) : (eagerCycle w d).cmdLen = w := rfl

@[simp] theorem eagerCycle_dinValid (w : Nat) (d : Dibit) : (eagerCycle w d).dinValid = true := rfl

@[simp] theorem eagerCycle_dinDibit (w : Nat) (d : Dibit) : (eagerCycle w d).dinDibit = d := rfl

theorem canLoad_eagerCycle (w : Nat) (d : Dibit) (r : Regs) : canLoad (eagerCycle w d) r = true :=
  (canLoad_iff _ r).mpr (.inr rfl)

theorem fireCmd_eagerCycle (w : Nat) (d : Dibit) (r : Regs) :
    fireCmd (eagerCycle w d) r = decide (r.st = .idle) := by
  rw [fireCmd, cmdReady, canLoad_eagerCycle]
  simp [eagerCycle]

theorem fireDin_eagerCycle (w : Nat) (d : Dibit) (r : Regs) :
    fireDin (eagerCycle w d) r = decide (r.st = .run) := by
  rw [fireDin, dinReady, canLoad_eagerCycle]
  simp [eagerCycle]

theorem edgeRegs_eagerCycle_idle (c : Config) (w : Nat) (d : Dibit) {r : Regs} (hidle : r.st = .idle) :
    edgeRegs c (eagerCycle w d) r = acceptCmd c (eagerCycle w d) w r := by
  simp only [edgeRegs, fireCmd_eagerCycle, hidle]
  rfl

theorem edgeRegs_eagerCycle_run (c : Config) (w : Nat) (d : Dibit) {r : Regs} (hrun : r.st = .run) :
    edgeRegs c (eagerCycle w d) r = dibStep c (eagerCycle w d) d r := by
  simp only [edgeRegs, dinPort, fireCmd_eagerCycle, fireDin_eagerCycle, hrun]
  rfl

/-- An eager host's edge takes its command or its dibit, and the symbol held leaves (R67, R71, R82). -/
theorem transfers_observe_eagerCycle (t : IqTable) (w : Nat) (d : Dibit) (r : Regs) :
    transfers (observe t (eagerCycle w d) r) =
      if r.st = .idle then (some w, none, r.ov) else (none, some d, r.ov) := by
  have hout : fireDout (eagerCycle w d) r = r.ov := fireDout_of_canLoad rfl (canLoad_eagerCycle w d r)
  cases hst : r.st <;> cases hov : r.ov <;>
    simp [transfers, observe, fireCmd_eagerCycle, fireDin_eagerCycle, hout, hst, hov]

/-- The state after an edge in which the host drives `eagerCycle w d`. -/
def afterEager (w : Nat) (d : Dibit) (s : State) : State :=
  closeEdge (eagerCycle w d) s (edgeRegs s.config (eagerCycle w d) s.regs)

/-- The host keeps its offers if it goes on offering the word that was not taken (R110). -/
theorem offersKept_afterEager {w w' : Nat} {d d' : Dibit} {s : State} (hd : s.regs.st = .idle → d' = d)
    (hw : s.regs.st = .run → w' = w) : offersKept (eagerCycle w' d') (afterEager w d s) = true := by
  cases hst : s.regs.st with
  | idle => simp [offersKept, afterEager, fireCmd_eagerCycle, fireDin_eagerCycle, hst, hd hst]
  | run => simp [offersKept, afterEager, fireCmd_eagerCycle, fireDin_eagerCycle, hst, hw hst]

/-- One edge of an eager host, and the edges after it. -/
theorem shows_of_eager_edge {s : State} {w k : Nat} {d : Dibit} {ps : List Ports}
    {l : List (Option Nat × Option Dibit × Bool)} (hi : s.inputs = eagerCycle w d :: ps) (hs : s.resetSeen = true)
    (hk : offersKept (eagerCycle w d) s = true) (hw : w < 2 ^ s.config.lenW) (hrest : Shows k (afterEager w d s) l) :
    Shows (k + 1) s ((if s.regs.st = .idle then (some w, none, s.regs.ov) else (none, some d, s.regs.ov)) :: l) := by
  have hp : cycle s = eagerCycle w d := by rw [cycle, hi]
  have hstep : step s = .next (afterEager w d s) := by
    rw [step_of_live (by rw [hp]; exact ⟨hs, rfl, hk⟩) (by rw [hp]; exact fun _ => hw), hp, afterEager]
  obtain ⟨t, hrun, rfl⟩ := hrest
  refine ⟨t, runSteps_succ_iff.mpr ⟨_, hstep, hrun⟩, ?_⟩
  rw [newEdges_of_step_runSteps hstep hrun, afterEager, newEdges_closeEdge, List.map_append, List.map_singleton,
    transfers_observe_eagerCycle]
  rfl

/-! ### A frame and the command after it -/

/-- With no frame open the next command is taken at once. -/
theorem shows_of_eager_command {s : State} {w : Nat} {d : Dibit} {ps : List Ports}
    (hi : s.inputs = eagerCycle w d :: ps) (hs : s.resetSeen = true) (hk : offersKept (eagerCycle w d) s = true)
    (hw : w < 2 ^ s.config.lenW) (hidle : s.regs.st = .idle) : Shows 1 s [(some w, none, s.regs.ov)] := by
  simpa [hidle] using shows_of_eager_edge hi hs hk hw (shows_zero _)

/-- The dibits of an open frame are taken one per edge, then the next command, and a symbol leaves at each of these
edges (R114). -/
theorem shows_of_eager_dibits {s : State} {next : Nat} {after : Dibit} {rest : List Ports} (ds : List Dibit)
    (hi : s.inputs = (ds ++ [after]).map (eagerCycle next) ++ rest) (hs : s.resetSeen = true)
    (hk : offersKept (eagerCycle next (ds.headD after)) s = true) (hnext : next < 2 ^ s.config.lenW)
    (hinv : RegsInv s.config s.regs) (hrem : s.regs.rem = ds.length) (hov : s.regs.ov = true) :
    Shows (ds.length + 1) s (ds.map (fun d => (none, some d, true)) ++ [(some next, none, true)]) := by
  induction ds generalizing s with
  | nil => simpa [hov] using shows_of_eager_command hi hs hk hnext (st_eq_idle_of_regsInv hinv hrem)
  | cons d ds ih =>
    have hpos : 1 ≤ s.regs.rem := by rw [hrem, List.length_cons]; omega
    have hrun := st_eq_run_of_regsInv hinv hpos
    have hregs : (afterEager next d s).regs = dibStep s.config (eagerCycle next d) d s.regs :=
      edgeRegs_eagerCycle_run s.config next d hrun
    have hrest := ih (s := afterEager next d s) (by rw [afterEager, closeEdge_inputs, hi]; rfl) hs
      (offersKept_afterEager (by simp [hrun]) fun _ => rfl) hnext (regsInv_edgeRegs _ hinv)
      (by rw [hregs, dibStep_rem, decRem_of_pos hpos hinv.rem_fits, hrem, List.length_cons, Nat.add_sub_cancel])
      (by rw [hregs, dibStep_ov])
    simpa [hrun, hov] using shows_of_eager_edge hi hs hk hnext hrest

/-- A command of `N` dibits occupies `N + 1` edges, an odd one a single edge, and then the next one is taken (R114). -/
theorem shows_of_eagerCycles {s : State} {w next : Nat} {after : Dibit} {ds : List Dibit} {rest : List Ports}
    (hi : s.inputs = eagerCycles w ds next after ++ rest) (hs : s.resetSeen = true) (hc : s.waitCmd = none)
    (hd : s.waitDin = none) (hidle : s.regs.st = .idle) (hw : w < 2 ^ s.config.lenW)
    (hnext : next < 2 ^ s.config.lenW) (hlen : w = 2 * ds.length ∨ (w % 2 = 1 ∧ ds = [])) :
    Shows (ds.length + 2) s ((some w, none, s.regs.ov) ::
      (ds.map (fun d => (none, some d, true)) ++ [(some next, none, decide (w % 2 = 0))])) := by
  have hregs : (afterEager w (ds.headD after) s).regs = acceptCmd s.config (eagerCycle w (ds.headD after)) w s.regs :=
    edgeRegs_eagerCycle_idle s.config w _ hidle
  have hi' : (afterEager w (ds.headD after) s).inputs = (ds ++ [after]).map (eagerCycle next) ++ rest := by
    rw [afterEager, closeEdge_inputs, hi]; rfl
  have hk : offersKept (eagerCycle next (ds.headD after)) (afterEager w (ds.headD after) s) = true :=
    offersKept_afterEager (fun _ => rfl) (by simp [hidle])
  have hrest : Shows (ds.length + 1) (afterEager w (ds.headD after) s)
      (ds.map (fun d => (none, some d, true)) ++ [(some next, none, decide (w % 2 = 0))]) := by
    rcases hlen with hlen | ⟨hodd, rfl⟩
    · have heven : w % 2 = 0 := by omega
      have hhalf : w / 2 = ds.length := by omega
      rw [acceptCmd_of_even hw heven, hhalf] at hregs
      have hfit : ds.length < 2 ^ (s.config.lenW - 1) := hhalf ▸ half_lt_of_fits hw
      rw [decide_eq_true heven]
      exact shows_of_eager_dibits ds hi' hs hk hnext (by rw [hregs]; exact regsInv_acceptStart _ _ hfit)
        (by rw [hregs, acceptStart_rem]) (by rw [hregs, acceptStart_ov])
    · rw [acceptCmd_of_odd hodd, raiseInvalidInputLength_of_canLoad rfl (canLoad_eagerCycle _ _ _)] at hregs
      have hcommand := shows_of_eager_command hi' hs hk hnext (by rw [hregs]; exact hidle)
      rw [hregs] at hcommand
      simpa [hodd] using hcommand
  simpa [hidle] using shows_of_eager_edge hi hs (offersKept_of_none hc hd) hw hrest

/-- Settles O38: the three channels' transfers are read off what the edges show. -/
theorem oneSymbolLeavesPerEdge : Obligations.OneSymbolLeavesPerEdge := by
  intro s ds w next after rest hi hs hc hd hidle hw hnext hlen
  obtain ⟨t, hrun, hshow⟩ := shows_of_eagerCycles hi hs hc hd hidle hw hnext hlen
  have hcmd := congrArg (List.map (·.1)) hshow
  have hdin := congrArg (List.map (·.2.1)) hshow
  have hdout := congrArg (List.map (·.2.2)) hshow
  simp only [List.map_map] at hcmd hdin hdout
  refine ⟨t, hrun, hcmd.trans ?_, hdin.trans ?_, hdout.trans ?_⟩
  · simp only [List.map_cons, List.map_append, List.map_map, Function.comp_def, List.map_const', List.map_nil,
      List.cons_append]
  · simp only [List.map_cons, List.map_append, List.map_map, Function.comp_def, List.map_nil, List.cons_append]
  · simp only [List.map_cons, List.map_append, List.map_map, Function.comp_def, List.map_const', List.map_nil,
      List.cons_append]

end Sys2Proof.Machine
end

section
/-! Progress (R117): at each cycle either the thing waited for happens, or downstream is not ready and the block is as
it was; so it happens no later than the first cycle in which downstream is ready. -/

namespace Sys2Proof.Machine

open Sys2Proof.Safety

theorem step_inputs {s t : State} (h : step s = .next t) : t.inputs = s.inputs.tail := by
  rcases step_cases h with ⟨-, rfl⟩ | ⟨-, -, rfl⟩
  · exact resetEdge_inputs s
  · exact closeEdge_inputs _ s _

/-- A transfer with payload `a` on one channel (`f`) is the first there over a run in which downstream is ready once, if
each edge from a state with `P` either makes it, or makes none there, has downstream not ready and keeps `P`. -/
theorem head?_of_progress {α : Type} {f : EdgeObs → Option α} {a : α} {P : State → Prop} {q : Ports → Bool}
    (hedge : ∀ s t, P s → q (cycle s) = true → step s = .next t →
      (newEdges s t).filterMap f = [a] ∨
      ((newEdges s t).filterMap f = [] ∧ (cycle s).doutReady = false ∧ P t))
    {k : Nat} {s u : State} (hP : P s) (hq : NextCycles k q s) (hrun : runSteps k s = .next u)
    (hready : ∃ p ∈ s.inputs.take k, p.doutReady = true) : ((newEdges s u).filterMap f).head? = some a := by
  induction k generalizing s with
  | zero => simp at hready
  | succ k ih =>
    obtain ⟨t, hs, hu⟩ := runSteps_succ_iff.mp hrun
    rw [newEdges_of_step_runSteps hs hu, List.filterMap_append]
    rcases hedge s t hP (cycle_of_nextCycles hq) hs with hnow | ⟨hnone, hstall, hP'⟩
    · rw [hnow]; rfl
    · rw [hnone, List.nil_append]
      refine ih hP' (nextCycles_tail hq (step_inputs hs)) hu ?_
      rw [step_inputs hs]
      cases hi : s.inputs with
      | nil => simp [hi] at hready
      | cons p ps =>
        have hp : p.doutReady = false := by simpa [cycle, hi] using hstall
        simpa [hi, hp] using hready

/-- Where no symbol may be loaded, downstream is not ready and the edge takes no word (R80). -/
theorem edge_of_not_canLoad {p : Ports} {r : Regs} (hl : canLoad p r = false) :
    p.doutReady = false ∧ fireCmd p r = false ∧ fireDin p r = false ∧ ∀ c, edgeRegs c p r = quiet p r := by
  obtain ⟨hov, hready⟩ : r.ov = true ∧ p.doutReady = false := by simpa [canLoad] using hl
  have hf := fireCmd_of_blocked (p := p) (r := r) (.inr ⟨hov, hready⟩)
  have hd := fireDin_of_blocked (p := p) (r := r) (.inr ⟨hov, hready⟩)
  exact ⟨hready, hf, hd, fun _ => edgeRegs_of_quiet hf hd⟩

/-- A command offered while no frame is open is accepted, or waits for downstream (R67). -/
theorem command_accepted_or_stalled {w : Nat} (s t : State) (hidle : s.regs.st = .idle)
    (hq : (!(cycle s).rst && (cycle s).cmdValid && decide ((cycle s).cmdLen = w)) = true) (h : step s = .next t) :
    acceptedCmds (newEdges s t) = [w] ∨
      (acceptedCmds (newEdges s t) = [] ∧ (cycle s).doutReady = false ∧ t.regs.st = .idle) := by
  obtain ⟨⟨h0, hv⟩, rfl⟩ : ((cycle s).rst = false ∧ (cycle s).cmdValid = true) ∧ (cycle s).cmdLen = w := by
    simpa using hq
  obtain ⟨-, -, rfl⟩ := step_of_no_rst h0 h
  rw [newEdges_closeEdge, acceptedCmds_observe, closeEdge_regs]
  cases hl : canLoad (cycle s) s.regs with
  | true => exact .inl (if_pos ((fireCmd_iff _ _).mpr ⟨hv, h0, hidle, hl⟩))
  | false =>
    obtain ⟨hready, hf, -, hregs⟩ := edge_of_not_canLoad hl
    exact .inr ⟨by rw [hf]; rfl, hready, by rw [hregs]; exact hidle⟩

/-- A dibit offered while a frame is open is accepted, or waits for downstream (R71). -/
theorem dibit_accepted_or_stalled {d : Dibit} (s t : State) (hrun : s.regs.st = .run)
    (hq : (!(cycle s).rst && (cycle s).dinValid && decide ((cycle s).dinDibit = d)) = true) (h : step s = .next t) :
    acceptedDins (newEdges s t) = [d] ∨
      (acceptedDins (newEdges s t) = [] ∧ (cycle s).doutReady = false ∧ t.regs.st = .run) := by
  obtain ⟨⟨h0, hv⟩, rfl⟩ : ((cycle s).rst = false ∧ (cycle s).dinValid = true) ∧ (cycle s).dinDibit = d := by
    simpa using hq
  obtain ⟨-, -, rfl⟩ := step_of_no_rst h0 h
  rw [newEdges_closeEdge, acceptedDins_observe, closeEdge_regs]
  cases hl : canLoad (cycle s) s.regs with
  | true => exact .inl (if_pos ((fireDin_iff _ _).mpr ⟨hv, h0, hrun, hl⟩))
  | false =>
    obtain ⟨hready, -, hd, hregs⟩ := edge_of_not_canLoad hl
    exact .inr ⟨by rw [hd]; rfl, hready, by rw [hregs]; exact hrun⟩

/-- A symbol held is delivered, or stays held while downstream is not ready (R82, R83). -/
theorem symbol_delivered_or_stalled {y : OutSymbol} (s t : State)
    (hheld : s.regs.ov = true ∧ heldSymbol s.config.iqTable s.regs = y) (hq : (!(cycle s).rst) = true)
    (h : step s = .next t) :
    delivered (newEdges s t) = [y] ∨
      (delivered (newEdges s t) = [] ∧ (cycle s).doutReady = false ∧
        t.regs.ov = true ∧ heldSymbol t.config.iqTable t.regs = y) := by
  obtain ⟨hov, rfl⟩ := hheld
  have h0 : (cycle s).rst = false := by simpa using hq
  cases hready : (cycle s).doutReady with
  | true =>
    obtain ⟨-, -, rfl⟩ := step_of_no_rst h0 h
    rw [newEdges_closeEdge, delivered_observe_of_canLoad _ h0 ((canLoad_iff _ _).mpr (.inr hready)), held, if_pos hov]
    exact .inl rfl
  | false =>
    obtain ⟨hov', hsame, hnone, -⟩ := step_of_stalled hov h0 hready h
    exact .inr ⟨hnone, rfl, hov', hsame⟩

/-- Settles O39: progress on each of the three channels. -/
theorem offersAreTakenOnceDownstreamIsReady : Obligations.OffersAreTakenOnceDownstreamIsReady := by
  intro k s t hrun hready
  refine ⟨fun w hidle hq => ?_, fun d hst hq => ?_, fun hov hq => ?_⟩
  · exact head?_of_progress (P := fun s => s.regs.st = .idle) command_accepted_or_stalled hidle hq hrun hready
  · exact head?_of_progress (P := fun s => s.regs.st = .run) dibit_accepted_or_stalled hst hq hrun hready
  · exact head?_of_progress
      (P := fun u => u.regs.ov = true ∧ heldSymbol u.config.iqTable u.regs = heldSymbol s.config.iqTable s.regs)
      symbol_delivered_or_stalled ⟨hov, rfl⟩ hq hrun hready

end Sys2Proof.Machine
end

section
/-! The end of a run (R115): its result, that it is final, and the loop that stops there. -/

namespace Sys2Proof.Machine

open Sys2Proof.Safety

/-- Settles O43: the end of the run by the laws of its parts, and a result is its three fields. -/
theorem runHasAResultExactlyAtItsEnd : Obligations.RunHasAResultExactlyAtItsEnd := by
  intro s y
  have hfields : resultAt s = y ↔ y.symbols = delivered s.trace ∧ y.errLen = s.regs.errs ∧ y.regs = s.regs := by
    cases y
    simp [resultAt, errLen, eq_comm]
  have hresult : runResult s = some y ↔ runEnded s = true ∧ resultAt s = y := by simp [runResult]
  rw [hresult, hfields, runEnded_iff, nothingToOffer_iff]
  simp only [and_assoc]

/-! ### An ended run is final -/

/-- What holds of the listed cycles and of a cycle not listed holds of the coming one. -/
theorem cycle_of_forall_take {q : Ports → Prop} {k : Nat} {s : State} (h : ∀ p ∈ s.inputs.take (k + 1), q p)
    (hrest : q (restPorts s)) : q (cycle s) := by
  unfold cycle
  cases hi : s.inputs with
  | nil => exact hrest
  | cons p ps => exact h p (by simp [hi])

theorem forall_take_tail {q : Ports → Prop} {k : Nat} {ps : List Ports} (h : ∀ p ∈ ps.take (k + 1), q p) :
    ∀ p ∈ ps.tail.take k, q p := by
  cases ps with
  | nil => simp
  | cons p ps => exact fun x hx => h x (List.mem_cons_of_mem p hx)

/-- An edge of a run that is over shows no transfer. -/
theorem observe_of_runEnded {s : State} (h : runEnded s = true) :
    observe s.config.iqTable (cycle s) s.regs = { cmd := none, din := none, dout := none } := by
  obtain ⟨-, ⟨-, hov⟩, hn⟩ := (runEnded_iff s).mp h
  obtain ⟨hc, hd⟩ := cycle_of_nothingToOffer hn
  simp [observe, fireCmd, fireDin, fireDout, doutValid, hc, hd, hov]

/-- A host with nothing left to offer has nothing left after any edge. -/
theorem nothingToOffer_of_tail {s t : State} (h : nothingToOffer s = true) (hc : t.waitCmd = none)
    (hd : t.waitDin = none) (hi : t.inputs = s.inputs.tail) : nothingToOffer t = true := by
  obtain ⟨-, -, hoffers⟩ := (nothingToOffer_iff s).mp h
  exact (nothingToOffer_iff t).mpr ⟨hc, hd, fun p hp => hoffers p (List.mem_of_mem_tail (hi ▸ hp))⟩

/-- One edge of a run that is over: still over after it, no transfer, and with `rst = 0` only the flags settle. -/
theorem exists_step_of_runEnded {s : State} (h : runEnded s = true) :
    ∃ t, step s = .next t ∧ runEnded t = true ∧ newEdges s t = [{ cmd := none, din := none, dout := none }] ∧
      ((cycle s).rst = false → t.regs = settleFlags (cycle s) s.regs) := by
  refine ⟨_, step_of_runEnded h, ?_⟩
  obtain ⟨hs, hq, hn⟩ := (runEnded_iff s).mp h
  obtain ⟨hc, hd⟩ := cycle_of_nothingToOffer hn
  cases hr : (cycle s).rst with
  | true =>
    have hn' := nothingToOffer_of_tail hn (resetEdge_waitCmd s) (resetEdge_waitDin s) (resetEdge_inputs s)
    exact ⟨(runEnded_iff _).mpr ⟨rfl, ⟨rfl, rfl⟩, hn'⟩, newEdges_resetEdge s, fun h0 => by cases h0⟩
  | false =>
    have hn' : nothingToOffer (closeEdge (cycle s) s (settleFlags (cycle s) s.regs)) = true :=
      nothingToOffer_of_tail hn (by simp [hc]) (by simp [hd]) (closeEdge_inputs _ s _)
    exact ⟨(runEnded_iff _).mpr ⟨hs, hq, hn'⟩, by simp [observe_of_runEnded h], fun _ => rfl⟩

/-- Settles O44, by induction on the number of edges: each leaves the run over. -/
theorem endedRunTransfersNothingMore : Obligations.EndedRunTransfersNothingMore := by
  intro k s h
  induction k generalizing s with
  | zero => exact ⟨s, rfl, h, by simp [newEdges], fun _ => ⟨rfl, fun _ => rfl⟩⟩
  | succ k ih =>
    obtain ⟨t, hs, hend, hedge, hregs⟩ := exists_step_of_runEnded h
    obtain ⟨u, hu, huend, huedges, hframe⟩ := ih t hend
    rw [step_inputs hs] at hframe
    refine ⟨u, runSteps_succ_iff.mpr ⟨t, hs, hu⟩, huend, ?_, fun hrst => ?_⟩
    · rw [newEdges_of_step_runSteps hs hu, hedge, huedges]
      rfl
    · obtain ⟨hsame, hflag⟩ := hframe (forall_take_tail hrst)
      have hsettled := hregs (cycle_of_forall_take hrst rfl)
      rw [hsettled] at hsame hflag
      refine ⟨congrArg (fun r : Regs => { r with errs := s.regs.errs, errp := s.regs.errp }) hsame, fun hclr => ?_⟩
      have h0 : (cycle s).errClr = false := cycle_of_forall_take hclr rfl
      rw [hflag (forall_take_tail hclr), settleFlags_errs, h0, Bool.not_false, Bool.and_true]

/-! ### Running to the end -/

/-- Everything one round of the loop with a next state can do. -/
theorem runToEnd_succ_cases {n : Nat} {s t : State} (h : runToEnd (n + 1) s = .next t) :
    (runEnded s = true ∧ s = t) ∨
    (runEnded s = false ∧ ∃ s₁, step s = .next s₁ ∧ runToEnd n s₁ = .next t) := by
  cases hend : runEnded s with
  | true => exact .inl ⟨rfl, by simpa [runToEnd_of_ended _ hend] using h⟩
  | false =>
    rw [runToEnd, hend] at h
    cases hs : step s with
    | next s₁ => exact .inr ⟨rfl, s₁, rfl, by simpa [hs] using h⟩
    | fault f => simp [hs] at h
    | refused r => simp [hs] at h

/-- Settles O45, by induction on the bound: a round of the loop stops in an ended state or is a step. -/
theorem runToEndStopsAtTheFirstEnd : Obligations.RunToEndStopsAtTheFirstEnd := by
  intro n s t h
  induction n generalizing s with
  | zero => exact ⟨0, Nat.le_refl 0, h, .inr rfl, fun i u hi => absurd hi (Nat.not_lt_zero i)⟩
  | succ n ih =>
    rcases runToEnd_succ_cases h with ⟨hend, rfl⟩ | ⟨hend, s₁, hs, ht⟩
    · exact ⟨0, Nat.zero_le _, rfl, .inl hend, fun i u hi => absurd hi (Nat.not_lt_zero i)⟩
    · obtain ⟨j, hj, hrun, hstop, hbefore⟩ := ih s₁ ht
      refine ⟨j + 1, Nat.succ_le_succ hj, runSteps_succ_iff.mpr ⟨s₁, hs, hrun⟩,
        hstop.imp_right (congrArg Nat.succ), fun i u hi hu => ?_⟩
      cases i with
      | zero =>
        obtain rfl : s = u := by simpa [runSteps] using hu
        exact hend
      | succ i =>
        obtain ⟨s₂, hs₂, hu'⟩ := runSteps_succ_iff.mp hu
        obtain rfl : s₁ = s₂ := by simpa using hs.symm.trans hs₂
        exact hbefore i u (Nat.lt_of_succ_lt_succ hi) hu'

end Sys2Proof.Machine
end

section
/-! Reset, broken offers, and outputs that ignore the offers (R102, R104, R110, R111). -/

namespace Sys2Proof.Machine

open Sys2Proof.Safety

/-- `RESET` is the reset edge, in any state (R102). -/
theorem exec_reset (s : State) : exec .reset s = .next (resetEdge s) := rfl

/-- Settles O19: the reset edge, written out. -/
theorem resetClearsEveryRegister : Obligations.ResetClearsEveryRegister := exec_reset

/-- With the reset values a command may be taken in every cycle with `rst = 0`, and a dibit in none (R104). -/
theorem ready_of_resetValues {p : Ports} (h0 : p.rst = false) :
    cmdReady p resetValues = true ∧ dinReady p resetValues = false :=
  ⟨(cmdReady_iff p resetValues).mpr ⟨h0, rfl, rfl⟩, by simp [dinReady, resetValues]⟩

/-- Settles O21: the registers after a reset edge are the reset values, whatever they were before it. -/
theorem readyForACommandAfterReset : Obligations.ReadyForACommandAfterReset := by
  intro s t h
  obtain rfl : resetEdge s = t := by simpa [exec_reset] using h
  exact ⟨rfl, fun p h0 => ready_of_resetValues h0, resetEdge (resetEdge s), exec_reset _, rfl⟩

/-- After a reset an edge with `rst = 0` at which the host has not kept its offers is refused (R110, I6). -/
theorem atEdge_of_withdrawn {p : Ports} {s : State} {r : Regs} (hs : s.resetSeen = true) (h0 : p.rst = false)
    (hk : offersKept p s = false) : atEdge p s r = .refused .offerWithdrawn := by
  simp [atEdge, hs, h0, hk]

/-- Settles O25: every other operation leaves `rst` at 0, so its edge is the one refused. -/
theorem brokenOfferIsRefused : Obligations.BrokenOfferIsRefused := by
  intro s i hs h0 hi hk
  rw [exec_eq_atEdge, atEdge_of_withdrawn hs ((drive_rst hi _).trans h0) hk]

/-- Settles O28: of a cycle's ports the handshake outputs read `rst` and `dout_ready`, and the other outputs none. -/
theorem outputsIgnoreTheOffers : Obligations.OutputsIgnoreTheOffers := by
  intro t r p p' hrst hready
  have hload : canLoad p r = canLoad p' r := by rw [canLoad, canLoad, hready]
  have hcmd : cmdReady p r = cmdReady p' r := by rw [cmdReady, cmdReady, hrst, hload]
  have hdin : dinReady p r = dinReady p' r := by rw [dinReady, dinReady, hrst, hload]
  have hdout : doutValid p r = doutValid p' r := by rw [doutValid, doutValid, hrst]
  rw [outPorts, outPorts, hcmd, hdin, hdout]

end Sys2Proof.Machine
end
